-- ==== Sys2Proof/Word.lean ====
section
/-! DEFINITION. The word types of the block: what spec/00_scope.md R14, R16 and R19 treat as bits. -/

namespace Sys2Proof

/-- A byte of pixel memory, or one raw byte between XOR and Base64 (R14, R125). -/
abbrev Byte := BitVec 8

/-- One UTF-16 code unit (R6, R16). -/
abbrev CodeUnit := BitVec 16

/-- A word of the host bus: an offset, a datum or a command word (R60, R90). -/
abbrev Word := BitVec 32

/-- A text: a sequence of code units (R16). -/
abbrev Text := List CodeUnit

/-- A bit string; element 0 is the first bit emitted and the first bit embedded (R16). -/
abbrev Bits := List Bool

/-- SENTINEL, the terminator code unit (R15). -/
abbrev sentinel : CodeUnit := 0x00B6#16

end Sys2Proof
end

