-- ==== Sys2Proof/Config.lean ====
section
/-! DEFINITION. What an implementation fixes (the build parameters of spec/00_scope.md R12) and the free values. -/

namespace Sys2Proof

/-- The build parameters (R12, R38). They are constant for one block; `State.build` holds them, so that a statement
about every state speaks of every build. -/
structure Build where
  /-- P_PB_BYTES: size of PB in bytes. -/
  pbBytes : Nat
  /-- P_MB_UNITS: size of MB in code units. -/
  mbUnits : Nat
  /-- P_KB_UNITS: size of KB in code units. -/
  kbUnits : Nat
  /-- P_OB_UNITS: size of OB in code units. -/
  obUnits : Nat
  deriving DecidableEq, Repr

/-- The reference build of R12, an example build only; the test vectors of spec/95_test_vectors.md use it. -/
def Build.reference : Build where
  pbBytes := 65536
  mbUnits := 4096
  kbUnits := 256
  obUnits := 6144

/-- The build of the block that `State.reset` describes. DESIGN CHOICE (log 1): R12 leaves the parameters to the
implementation, and this names the spec's own reference values. Only `ResetMeetsInvariant` speaks of them. -/
def Config.build : Build := Build.reference

/-- FREE VALUE (log 3): the value of the n-th draw, where the spec leaves a read value unspecified (R44, R261, R272).
It has no body, so no proof can see what it is. -/
opaque Config.freeWord : Nat → Word

end Sys2Proof
end

