-- ==== Sys2Proof/Syntax.lean ====
section
/-! DEFINITION. The eight commands of SCMD-1 (spec/30_encoding.md R92), one constructor per row of the opcode table.
Their operands are implicit (R96), so no constructor has an argument. -/

namespace Sys2Proof

/-- A command of SCMD-1 (R92). -/
inductive Instr where
  /-- NOP, word 0x00000000 (R200). -/
  | nop
  /-- EMBED, word 0x00000001 (R178). -/
  | embed
  /-- EMBED.K, word 0x00000011 (R179). -/
  | embedK
  /-- EXTRACT, word 0x00000002 (R180). -/
  | extract
  /-- EXTRACT.K, word 0x00000012 (R181). -/
  | extractK
  /-- XOR_ENC.K, word 0x00000013 (R155). -/
  | xorEncK
  /-- XOR_DEC.K, word 0x00000014 (R156). -/
  | xorDecK
  /-- SOFT_RESET, word 0x0000000F (R202). -/
  | softReset
  deriving DecidableEq, Repr

end Sys2Proof
end

