-- ==== Sys2Proof/WellFormed.lean ====
section
/-! DEFINITION. What is well formed: the fields of a command word (spec/30_encoding.md R91, R94), the instruction they
stand for, and a build (spec/00_scope.md R12). -/

namespace Sys2Proof

/-- The fields of a command word (R91). -/
structure CommandFields where
  /-- RSV, bits 31:5. -/
  rsv : BitVec 27
  /-- K, bit 4. -/
  key : Bool
  /-- OP, bits 3:0. -/
  op : BitVec 4
  deriving DecidableEq, Repr

/-- Why a command word is illegal (R94), one constructor per line of that rule. -/
inductive Illegal where
  /-- RSV is not 0. -/
  | reservedBits
  /-- OP lies in 0x5..0xE. -/
  | unassignedOp
  /-- OP is 0x0 or 0xF and K is 1. -/
  | keyOnControl
  /-- OP is 0x3 or 0x4 and K is 0. -/
  | keyMissing
  deriving DecidableEq, Repr

/-- The first line of R94 that a word's fields meet, if any. -/
def CommandFields.problem (f : CommandFields) : Option Illegal :=
  if f.rsv ≠ 0 then some .reservedBits
  else if 5 ≤ f.op.toNat ∧ f.op.toNat ≤ 14 then some .unassignedOp
  else if (f.op = 0x0 ∨ f.op = 0xF) ∧ f.key = true then some .keyOnControl
  else if (f.op = 0x3 ∨ f.op = 0x4) ∧ f.key = false then some .keyMissing
  else none

/-- The OP and K columns of R92's opcode map. -/
def Instr.fields : Instr → CommandFields
  | .nop       => ⟨0, false, 0x0⟩
  | .embed     => ⟨0, false, 0x1⟩
  | .embedK    => ⟨0, true, 0x1⟩
  | .extract   => ⟨0, false, 0x2⟩
  | .extractK  => ⟨0, true, 0x2⟩
  | .xorEncK   => ⟨0, true, 0x3⟩
  | .xorDecK   => ⟨0, true, 0x4⟩
  | .softReset => ⟨0, false, 0xF⟩

/-- An instruction is well formed when its fields meet no line of R94. -/
abbrev Instr.WellFormed (i : Instr) : Prop := i.fields.problem = none

/-- The constraints R12 sets on the build parameters. -/
abbrev Build.Valid (b : Build) : Prop :=
  b.pbBytes % 4 = 0 ∧ 4 ≤ b.pbBytes ∧ b.pbBytes ≤ 2 ^ 24 ∧
  1 ≤ b.mbUnits ∧ b.mbUnits ≤ 2 ^ 22 ∧
  1 ≤ b.kbUnits ∧ b.kbUnits ≤ 2 ^ 22 ∧
  3 * b.pbBytes / 32 ≤ b.obUnits ∧ 4 * ((b.mbUnits + 2) / 3) ≤ b.obUnits ∧ b.obUnits ≤ 2 ^ 22

end Sys2Proof
end

