-- ==== Sys2Proof/Decode.lean ====
section
/-! DEFINITION. Command words: decoding by exact match (spec/30_encoding.md R93), the encoder from the field columns of
R92, and the decoder as the host's opcode-table check calls it. -/

namespace Sys2Proof

/-- The fields of a command word (R91). -/
def commandFields (w : Word) : CommandFields where
  rsv := w.extractLsb' 5 27
  key := w.getLsbD 4
  op  := w.extractLsb' 0 4

/-- A command word put together from its fields: RSV above K above OP (R91). -/
def packFields (f : CommandFields) : Word :=
  f.rsv ++ (BitVec.ofBool f.key ++ f.op)

/-- The engine's decoder (R93): an exact match against the eight words of R92. Every other word is rejected by the line
of R94 it meets. -/
def decode (w : Word) : Except Illegal Instr :=
  if w = 0x00000000#32 then .ok .nop
  else if w = 0x00000001#32 then .ok .embed
  else if w = 0x00000011#32 then .ok .embedK
  else if w = 0x00000002#32 then .ok .extract
  else if w = 0x00000012#32 then .ok .extractK
  else if w = 0x00000013#32 then .ok .xorEncK
  else if w = 0x00000014#32 then .ok .xorDecK
  else if w = 0x0000000F#32 then .ok .softReset
  else .error ((commandFields w).problem.getD .unassignedOp)

/-- The command word of an instruction, from its OP and K columns in R92. -/
def encode (i : Instr) : Word := packFields i.fields

/-- A command is one 32-bit bus datum (R90); it is not stored as bytes, so the table's numbering of its bits is the
word's own. `nbits` is at most 32 in the table, and the bits above it are 0. -/
def tableWord (nbits w : Nat) : Option Word :=
  if w % 2 ^ nbits < 2 ^ 32 then some (BitVec.ofNat 32 (w % 2 ^ nbits)) else none

/-- What the decoder reads from the word the opcode table numbers as `w` of `nbits` bits. -/
def decodeTableWord (nbits w : Nat) : Option Instr :=
  match tableWord nbits w with
  | some word => (decode word).toOption
  | none => none

end Sys2Proof
end

