-- ==== Sys2Proof/Machine/State.lean ====
section
/-! DEFINITION. The state of the block (spec/10_state.md R22), as plain data: its registers, its four block memories,
and beside them the model's own bookkeeping, the host agent's remaining operations and the schedule. -/

namespace Sys2Proof.Machine

/-- The four block memories (R41 to R44). -/
inductive BlockMem where
  | pb | mb | kb | ob
  deriving DecidableEq, Repr

/-- A block memory: its written elements as (index, value) pairs, indices strictly rising. An element that is not listed
has its `written` bit at 0 (R45) and reads as no value (log 2). `Memory 8` is a list of `Host.Cell`. -/
abbrev Memory (w : Nat) := List (Nat × BitVec w)

/-- The error codes of R221 that have a name. -/
inductive ErrCode where
  | none | validation | capacity | notFound | decode | cipher | illegalCmd
  deriving DecidableEq, Repr

/-- One operation of a host program (R101), and waiting for the interrupt (R76). Offsets are relative to the block's
base address (R61). -/
inductive HostOp where
  /-- A bus write: transfer size in bytes, byte lanes enabled, offset, datum (R62). -/
  | write (size : Nat) (lanes : BitVec 4) (addr data : Word)
  /-- A bus read: transfer size in bytes and offset (R62). -/
  | read (size : Nat) (addr : Word)
  /-- POLL A, M, V: repeat `RD A` until (data AND M) = V (R101). -/
  | poll (addr mask value : Word)
  /-- Wait until the `irq` output is high (R46, R76; log 12). -/
  | awaitIrq
  deriving DecidableEq, Repr

/-- Whose turn it is: the host's, the engine's (R11), or the reset input's (R260). -/
inductive Turn where
  | host | engine | rst
  deriving DecidableEq, Repr

/-- The response of a bus access (R64). -/
inductive BusResp where
  | okay | slverr
  deriving DecidableEq, Repr

/-- What the block answers to one bus access; the datum is 0 for a write. -/
structure BusReply where
  resp : BusResp
  data : Word
  deriving DecidableEq, Repr

/-- The machine. -/
structure State where
  /-- The build parameters, readable as CFG_PB_BYTES .. CFG_OB_UNITS (R12, R38). -/
  build : Build
  /-- CMD_LATCH, readable as CMD (R28, R47). -/
  cmdLatch : Word
  /-- STATUS.BUSY (R30). -/
  busy : Bool
  /-- STATUS.DONE (R31). -/
  done : Bool
  /-- STATUS.HZD (R33). -/
  hzd : Bool
  /-- STATUS.ERR (R32). -/
  err : BitVec 4
  /-- CTRL.IE (R34). -/
  ie : Bool
  /-- WIDTH.W (R35). -/
  width : BitVec 16
  /-- HEIGHT.H (R35). -/
  height : BitVec 16
  /-- MSG_LEN.L (R36). -/
  msgLen : BitVec 24
  /-- KEY_LEN.KL (R36). -/
  keyLen : BitVec 24
  /-- OUT_LEN (R37). -/
  outLen : BitVec 24
  /-- ERR_INFO (R37). -/
  errInfo : Word
  /-- BITLEN (R37). -/
  bitLen : Word
  /-- CAPACITY (R37). -/
  capacity : Word
  /-- PB, the pixel memory (R41). -/
  pb : Memory 8
  /-- MB, the message memory (R42). -/
  mb : Memory 16
  /-- KB, the key memory (R43). -/
  kb : Memory 16
  /-- OB, the output memory (R44). -/
  ob : Memory 16
  /-- The model fault HostHazard has been recorded (R271); nothing clears it (log 7). -/
  hostHazard : Bool
  /-- The host's remaining operations, first one first (R101, R104; log 5). -/
  program : List HostOp
  /-- Whose turns come next; once it is empty, the engine moves while BUSY = 1 and the host otherwise (log 4). -/
  schedule : List Turn
  /-- The block's answer to the host's last bus access (log 19). -/
  reply : Option BusReply
  /-- How many free values have been drawn (log 3). -/
  draws : Nat
  deriving DecidableEq, Repr

/-- Why the machine stops. -/
inductive Fault where
  /-- The model fault UninitRead (R18, R262): raised by the engine's reads of PB, MB and KB when the element's `written`
  bit is 0, with the memory and the element. Safe: the hardware reads some value and goes on. -/
  | uninitRead (mem : BlockMem) (index : Nat)
  deriving DecidableEq, Repr

/-- Why an instruction has no meaning. -/
inductive Refusal where
  /-- Raised by an arm of `exec` for an instruction that has no meaning yet. Safe: nothing is proved of it. -/
  | notModelled (mnemonic : String)
  deriving DecidableEq, Repr

/-- The outcome of one step of this machine. -/
abbrev Result := Host.Outcome State Fault Refusal

/-- The block of build `b` right after power-on reset (R23, R260, R261), with nothing for the host to do. -/
def State.powerOn (b : Build) : State where
  build := b
  cmdLatch := 0
  busy := false
  done := false
  hzd := false
  err := 0
  ie := false
  width := 0
  height := 0
  msgLen := 0
  keyLen := 0
  outLen := 0
  errInfo := 0
  bitLen := 0
  capacity := 0
  pb := []
  mb := []
  kb := []
  ob := []
  hostHazard := false
  program := []
  schedule := []
  reply := none
  draws := 0

/-- The machine right after reset (R260), at the build that `Config.build` names (log 1). -/
def State.reset : State := State.powerOn Config.build

end Sys2Proof.Machine
end

