-- ==== Sys2Proof/Machine/Flags.lean ====
section
/-! DEFINITION. The status flags: STATUS, its write rule, the interrupt output and the error codes
(spec/10_state.md R29 to R33, R46; spec/60_exceptions.md R221). -/

namespace Sys2Proof.Machine

/-- The 4-bit STATUS.ERR code of an error (R221). -/
def ErrCode.code : ErrCode → BitVec 4
  | .none       => 0x0
  | .validation => 0x1
  | .capacity   => 0x2
  | .notFound   => 0x3
  | .decode     => 0x4
  | .cipher     => 0x5
  | .illegalCmd => 0x6

/-- STATUS as the host reads it: BUSY at bit 0, DONE at 1, HZD at 2, ERR at 7:4; the other bits read 0 (R23, R25, R29). -/
def State.statusWord (s : State) : Word :=
  (0 : BitVec 24) ++ (s.err ++ (BitVec.ofBool false ++ (BitVec.ofBool s.hzd ++
    (BitVec.ofBool s.done ++ BitVec.ofBool s.busy))))

/-- A host write to STATUS: a 1 at bit 1 clears DONE and a 1 at bit 2 clears HZD; nothing else changes (R24, R29). -/
def State.writeStatus (data : Word) (s : State) : State :=
  { s with
    done := s.done && !data.getLsbD 1
    hzd  := s.hzd && !data.getLsbD 2 }

/-- The `irq` output, a level (R46). -/
def State.irq (s : State) : Bool := s.ie && s.done

end Sys2Proof.Machine
end

