-- ==== Sys2Proof/Machine/Ops.lean ====
section
/-! DEFINITION. The named operations: reading and writing the block memories (spec/20_memory.md R82, R83), accepting a
command (spec/60_exceptions.md R229), ending one with an error (R231, the block's only exception) or with success (R232),
and the reset of the registers (spec/70_reset_and_hazards.md R260). Nothing returns from an error, because nothing is saved
(R234). -/

namespace Sys2Proof.Machine

/-! ### Block memories -/

/-- The canonical form of a block memory of `size` elements: indices strictly rising, all of them below `size`. An
unlisted element reads as no value, so no listed element equals it. -/
abbrev Memory.wf {w : Nat} (size : Nat) (m : Memory w) : Prop :=
  (m.map Prod.fst).Pairwise (· < ·) ∧ ∀ c ∈ m, c.1 < size

/-- The value of element `a`, or none when its `written` bit is 0 (R45). -/
def Memory.read? {w : Nat} : Memory w → Nat → Option (BitVec w)
  | [], _ => none
  | (k, v) :: rest, a => if k = a then some v else Memory.read? rest a

/-- Element `a` takes the value `v`, and its `written` bit is set (R45, R83). The canonical form is kept. -/
def Memory.write {w : Nat} : Memory w → Nat → BitVec w → Memory w
  | [], a, v => [(a, v)]
  | (k, x) :: rest, a, v =>
    if a < k then (a, v) :: (k, x) :: rest
    else if a = k then (a, v) :: rest
    else (k, x) :: Memory.write rest a v

/-- The elements from index `u` on take the values of a list, in order. -/
def Memory.writeFrom {w : Nat} : Memory w → Nat → List (BitVec w) → Memory w
  | m, _, [] => m
  | m, u, v :: vs => Memory.writeFrom (Memory.write m u v) (u + 1) vs

/-- The engine's MemRead (R83): an element whose `written` bit is 0 is the model fault UninitRead (R262). -/
def memRead {w : Nat} (which : BlockMem) (m : Memory w) (a : Nat) : Except Fault (BitVec w) :=
  match m.read? a with
  | some v => .ok v
  | none => .error (.uninitRead which a)

/-- MemRead of each index of a list, in order; the first unwritten element is the fault (log 15). -/
def memReadAll {w : Nat} (which : BlockMem) (m : Memory w) : List Nat → Except Fault (List (BitVec w))
  | [] => .ok []
  | a :: rest =>
    match memRead which m a with
    | .error f => .error f
    | .ok v =>
      match memReadAll which m rest with
      | .error f => .error f
      | .ok vs => .ok (v :: vs)

/-- The `written` bit of an element (R45). OB has none in the spec; for it this says that the model holds a value. -/
def State.written (s : State) : BlockMem → Nat → Bool
  | .pb, a => (s.pb.read? a).isSome
  | .mb, a => (s.mb.read? a).isSome
  | .kb, a => (s.kb.read? a).isSome
  | .ob, a => (s.ob.read? a).isSome

/-! ### Acceptance and completion -/

/-- Acceptance of a command word other than SOFT_RESET's (R229): the word is latched, BUSY is set, DONE, ERR and the four
result registers are cleared, HZD is unchanged. -/
def State.accept (w : Word) (s : State) : State :=
  { s with
    cmdLatch := w
    busy := true
    done := false
    err := ErrCode.none.code
    outLen := 0
    errInfo := 0
    bitLen := 0
    capacity := 0 }

/-- `raise Error(code, info)` and its completion (R230, R231): ERR and ERR_INFO are written, BUSY is cleared and DONE set.
No block memory is written; OUT_LEN, BITLEN and CAPACITY keep what the pseudocode or acceptance gave them (log 14). -/
def State.raise (code : ErrCode) (info : Word) (s : State) : Result :=
  .next { s with err := code.code, errInfo := info, busy := false, done := true }

/-- `return Ok` and its completion (R230, R232), the memory and register writes listed in Ok(...) being made already. -/
def State.returnOk (s : State) : Result :=
  .next { s with err := ErrCode.none.code, busy := false, done := true }

/-- Goes on with the value read, or stops with the model fault (R18, R230). -/
def orFault {α : Type} (r : Except Fault α) (k : α → Result) : Result :=
  match r with
  | .ok v => k v
  | .error f => .fault f

/-! ### Reset -/

/-- Every register of R23 takes its reset value; the constants and the build parameters have no other (R23, R260). -/
def State.resetRegisters (s : State) : State :=
  { s with
    cmdLatch := 0
    busy := false
    done := false
    hzd := false
    err := ErrCode.none.code
    ie := false
    width := 0
    height := 0
    msgLen := 0
    keyLen := 0
    outLen := 0
    errInfo := 0
    bitLen := 0
    capacity := 0 }

/-- The reset input `rst` (R260, R261): the registers take their reset values, every element of every memory becomes
unspecified with its `written` bit at 0, and a command in flight is abandoned. -/
def State.hardwareReset (s : State) : State :=
  { s.resetRegisters with pb := [], mb := [], kb := [], ob := [] }

end Sys2Proof.Machine
end

