-- ==== Sys2Proof/Machine/Control.lean ====
section
/-! DEFINITION. The control commands (spec/43_control.md): NOP, SOFT_RESET, and what an illegal word does. -/

namespace Sys2Proof.Machine

/-- NOP (R200). -/
def execNop (s : State) : Result := s.returnOk

/-- An illegal command word `w` (R201): no constructor of Instr, so no arm of `exec`; the engine's turn calls it. -/
def execIllegal (w : Word) (s : State) : Result := s.raise .illegalCmd w

/-- SOFT_RESET (R202), performed by the CMD write itself: the registers take their reset values, CMD_LATCH keeps the
SOFT_RESET word, and the memories with their `written` bits are unchanged. -/
def execSoftReset (s : State) : Result :=
  .next { s.resetRegisters with cmdLatch := 0x0000000F#32 }

end Sys2Proof.Machine
end

