-- ==== Sys2Proof/Machine/Codec.lean ====
section
/-! DEFINITION. The bit/byte codec primitives (spec/40_codec.md): text to bits and back, and Base64. They are internal
functions of the engine. -/

namespace Sys2Proof.Machine

/-! ### Text and bits -/

/-- The number of binary digits of `n` without leading zeros, 1 for 0 (R120); `fuel` bounds the digits counted. -/
def digitCount : Nat → Nat → Nat
  | 0, _ => 1
  | fuel + 1, n => if n < 2 then 1 else digitCount fuel (n / 2) + 1

/-- bitlen(v) of a code unit (R120). -/
def bitlen (v : CodeUnit) : Nat := digitCount 16 v.toNat

/-- group(v): the binary numeral of a code unit, most significant bit first, padded to at least 8 digits and never cut
(R120). -/
def group (v : CodeUnit) : Bits :=
  let n := max 8 (bitlen v)
  (List.range n).map fun k => v.getLsbD (n - 1 - k)

/-- T2B(t), `textToBinary`: the groups of a text, concatenated (R121). -/
def t2b (t : Text) : Bits := t.flatMap group

/-- The base-2 integer a bit string writes, most significant bit first (R123). -/
def bitsValue (b : Bits) : Nat := b.foldl (fun acc bit => 2 * acc + bit.toNat) 0

/-- B2T(b), `binaryToText`: each full group of 8 bits is a code unit; a shorter tail is dropped (R123). -/
def b2t : Bits → Text
  | b0 :: b1 :: b2 :: b3 :: b4 :: b5 :: b6 :: b7 :: rest =>
    BitVec.ofNat 16 (bitsValue [b0, b1, b2, b3, b4, b5, b6, b7]) :: b2t rest
  | _ => []

/-! ### Base64 -/

/-- B64CHAR: the code unit of a 6-bit value (R100). -/
def b64Char (v : BitVec 6) : CodeUnit :=
  let n := v.toNat
  if n < 26 then BitVec.ofNat 16 (0x41 + n)
  else if n < 52 then BitVec.ofNat 16 (0x61 + (n - 26))
  else if n < 62 then BitVec.ofNat 16 (0x30 + (n - 52))
  else if n = 62 then 0x2B
  else 0x2F

/-- B64VAL: the value of a code unit, none outside the alphabet (R100). -/
def b64Val (c : CodeUnit) : Option (BitVec 6) :=
  let n := c.toNat
  if 0x41 ≤ n ∧ n ≤ 0x5A then some (BitVec.ofNat 6 (n - 0x41))
  else if 0x61 ≤ n ∧ n ≤ 0x7A then some (BitVec.ofNat 6 (n - 0x61 + 26))
  else if 0x30 ≤ n ∧ n ≤ 0x39 then some (BitVec.ofNat 6 (n - 0x30 + 52))
  else if n = 0x2B then some 62
  else if n = 0x2F then some 63
  else none

/-- The pad character '=' (R100). -/
abbrev padChar : CodeUnit := 0x3D#16

/-- The character of six bits of a 24-bit group, the lowest of them at `lo` (R125). -/
def b64Digit (v : BitVec 24) (lo : Nat) : CodeUnit := b64Char (v.extractLsb' lo 6)

/-- B64Enc(x): three bytes to four characters, a shorter last group padded with '=' (R125). -/
def b64Enc : List Byte → Text
  | [] => []
  | [a] =>
    let v : BitVec 24 := a ++ (0 : BitVec 16)
    [b64Digit v 18, b64Digit v 12, padChar, padChar]
  | [a, b] =>
    let v : BitVec 24 := a ++ (b ++ (0 : BitVec 8))
    [b64Digit v 18, b64Digit v 12, b64Digit v 6, padChar]
  | a :: b :: c :: rest =>
    let v : BitVec 24 := a ++ (b ++ c)
    b64Digit v 18 :: b64Digit v 12 :: b64Digit v 6 :: b64Digit v 0 :: b64Enc rest

/-- p: how many pad characters end a text, at most two counted (R127). -/
def padCount (t : Text) : Nat :=
  match t.reverse with
  | c :: d :: _ => if c = padChar then (if d = padChar then 2 else 1) else 0
  | [c] => if c = padChar then 1 else 0
  | [] => 0

/-- The three bytes of a group of four characters; a pad character counts as a missing value, 0 (R127). -/
def b64Bytes (a b c d : CodeUnit) : List Byte :=
  let digit (x : CodeUnit) : BitVec 6 := (b64Val x).getD 0
  let v : BitVec 24 := digit a ++ (digit b ++ (digit c ++ digit d))
  [v.extractLsb' 16 8, v.extractLsb' 8 8, v.extractLsb' 0 8]

/-- The groups of a checked text: three bytes each, the last group short of its `p` pads (R127). -/
def b64DecGroups (p : Nat) : Text → List Byte
  | [a, b, c, d] => (b64Bytes a b c d).take (3 - p)
  | a :: b :: c :: d :: rest => b64Bytes a b c d ++ b64DecGroups p rest
  | _ => []

/-- B64Dec(t): strict decoding; none is `fail`, under F1 (length) or F2 (alphabet) (R127). -/
def b64Dec (t : Text) : Option (List Byte) :=
  if t.length % 4 ≠ 0 then none
  else if (t.take (t.length - padCount t)).any (fun c => (b64Val c).isNone) then none
  else some (b64DecGroups (padCount t) t)

end Sys2Proof.Machine
end

