-- ==== Sys2Proof/Machine/Operands.lean ====
section
/-! DEFINITION. The operands: a command's implicit operands and their validation (spec/30_encoding.md R96, R97;
spec/60_exceptions.md R223), and the operand of a bus access, its offset (spec/20_memory.md R61). -/

namespace Sys2Proof.Machine

/-! ### A command's operands -/

/-- N, the image's length in bytes (R40). -/
def State.imageBytes (s : State) : Nat := 4 * s.width.toNat * s.height.toNat

/-- C, the image's capacity in bits (R40). -/
def State.capacityBits (s : State) : Nat := 3 * s.width.toNat * s.height.toNat

/-- `CAPACITY <- C`, once validation has passed (R37, R177). -/
def State.withCapacity (s : State) : State :=
  { s with capacity := BitVec.ofNat 32 s.capacityBits }

/-- Text(MB, L) (R82). -/
def State.messageText (s : State) : Except Fault Text :=
  memReadAll .mb s.mb (List.range s.msgLen.toNat)

/-- Text(KB, KL) (R82). -/
def State.keyText (s : State) : Except Fault Text :=
  memReadAll .kb s.kb (List.range s.keyLen.toNat)

/-! ### Validation -/

/-- The validation checks (R223). -/
inductive Check where
  | v1 | v2 | v3 | v4 | v5 | v6
  deriving DecidableEq, Repr

/-- When a check fails (R223). -/
def Check.fails (c : Check) (s : State) : Bool :=
  match c with
  | .v1 => decide (s.width = 0 ∨ s.height = 0)
  | .v2 => decide (s.build.pbBytes < s.imageBytes)
  | .v3 => decide (s.msgLen = 0)
  | .v4 => decide (s.build.mbUnits < s.msgLen.toNat)
  | .v5 => decide (s.keyLen = 0)
  | .v6 => decide (s.build.kbUnits < s.keyLen.toNat)

/-- The ERR_INFO of a failing check (R222). -/
def Check.info : Check → Word
  | .v1 => 0x01
  | .v2 => 0x02
  | .v3 => 0x03
  | .v4 => 0x04
  | .v5 => 0x05
  | .v6 => 0x06

/-- Runs a command's checks in order, before any processing: the first that fails raises VALIDATION with its id,
otherwise the command goes on (R223). -/
def State.validated (s : State) (checks : List Check) (body : Result) : Result :=
  match checks.find? (·.fails s) with
  | some c => s.raise .validation c.info
  | none => body

/-! ### The offset of a bus access -/

/-- The memory-mapped registers (R23). -/
inductive Reg where
  | id | cmd | status | ctrl | width | height | msgLen | keyLen | outLen | errInfo | bitLen | capacity
  | cfgPbBytes | cfgMbUnits | cfgKbUnits | cfgObUnits | sentinel
  deriving DecidableEq, Repr

/-- The register at a byte offset, if R23 lists the offset. -/
def regAt : Nat → Option Reg
  | 0x000 => some .id
  | 0x004 => some .cmd
  | 0x008 => some .status
  | 0x00C => some .ctrl
  | 0x010 => some .width
  | 0x014 => some .height
  | 0x018 => some .msgLen
  | 0x01C => some .keyLen
  | 0x020 => some .outLen
  | 0x024 => some .errInfo
  | 0x028 => some .bitLen
  | 0x02C => some .capacity
  | 0x030 => some .cfgPbBytes
  | 0x034 => some .cfgMbUnits
  | 0x038 => some .cfgKbUnits
  | 0x03C => some .cfgObUnits
  | 0x040 => some .sentinel
  | _ => none

/-- Where a mapped offset leads: a register, a byte offset in the PB window, or a unit index in another window. -/
inductive Target where
  | reg (r : Reg)
  | pb (o : Nat)
  | mb (u : Nat)
  | kb (u : Nat)
  | ob (u : Nat)
  deriving DecidableEq, Repr

/-- Host address decode (R61); the first matching line applies, and none is an unmapped offset. -/
def decodeAddr (b : Build) (addr : Word) : Option Target :=
  let a := addr.toNat
  if a < 0x1000 ∧ (regAt a).isSome then (regAt a).map .reg
  else if 0x01000000 ≤ a ∧ a < 0x01000000 + b.pbBytes then some (.pb (a - 0x01000000))
  else if 0x02000000 ≤ a ∧ a < 0x02000000 + 4 * b.mbUnits then some (.mb ((a - 0x02000000) / 4))
  else if 0x03000000 ≤ a ∧ a < 0x03000000 + 4 * b.kbUnits then some (.kb ((a - 0x03000000) / 4))
  else if 0x04000000 ≤ a ∧ a < 0x04000000 + 4 * b.obUnits then some (.ob ((a - 0x04000000) / 4))
  else none

/-- The target of a bus access of `size` bytes at an offset; none is a bus error: a narrow or wide access, a misaligned
one, or an unmapped one (R62, R63, R64). -/
def busTarget (b : Build) (size : Nat) (addr : Word) : Option Target :=
  if size = 4 ∧ addr.toNat % 4 = 0 then decodeAddr b addr else none

/-- The targets whose writes are dropped while BUSY = 1 (R270). -/
def Target.inputOfEngine : Target → Bool
  | .reg .cmd | .reg .width | .reg .height | .reg .msgLen | .reg .keyLen => true
  | .pb _ | .mb _ | .kb _ => true
  | .reg _ | .ob _ => false

/-- The targets whose reads are unspecified while BUSY = 1 (R272). -/
def Target.resultOfEngine : Target → Bool
  | .reg .outLen | .reg .errInfo | .reg .bitLen | .reg .capacity => true
  | .pb _ | .ob _ => true
  | .reg _ | .mb _ | .kb _ => false

end Sys2Proof.Machine
end

