-- ==== Sys2Proof/Machine/Xor.lean ====
section
/-! DEFINITION. The XOR-cipher stream processor (spec/41_xor.md): its two functions and the commands XOR_ENC.K and
XOR_DEC.K. -/

namespace Sys2Proof.Machine

/-- Each element XORed with the key unit at its index modulo the key's length (R150, R154). -/
def xorCycled (t : Text) (k : Text) : Text :=
  t.mapIdx fun i x => x ^^^ k.getD (i % k.length) 0

/-- xorEncrypt(m, k) (R150); none is `raise Error(DECODE, 0x2)`, a result that is no byte (R151). -/
def xorEncrypt (m k : Text) : Option Text :=
  let c := xorCycled m k
  if c.any (fun x => 0xFF < x.toNat) then none
  else some (b64Enc (c.map (·.setWidth 8)))

/-- xorDecrypt(a, k) (R152); none is `raise Error(DECODE, 0x1)`, malformed Base64 (R128). -/
def xorDecrypt (a k : Text) : Option Text :=
  (b64Dec a).map fun b => xorCycled (b.map (·.setWidth 16)) k

/-- The writes of an output command and its `return Ok(OUT_LEN <- len(t))` (R155, R156, R180, R181). -/
def State.emit (t : Text) (s : State) : Result :=
  { s with ob := s.ob.writeFrom 0 t, outLen := BitVec.ofNat 24 t.length }.returnOk

/-- XOR_ENC.K (R155). -/
def execXorEncK (s : State) : Result :=
  s.validated [.v3, .v4, .v5, .v6] <|
    orFault s.messageText fun m =>
    orFault s.keyText fun k =>
    match xorEncrypt m k with
    | some a => s.emit a
    | none => s.raise .decode 0x2

/-- XOR_DEC.K (R156). -/
def execXorDecK (s : State) : Result :=
  s.validated [.v3, .v4, .v5, .v6] <|
    orFault s.messageText fun a =>
    orFault s.keyText fun k =>
    match xorDecrypt a k with
    | some m => s.emit m
    | none => s.raise .decode 0x1

end Sys2Proof.Machine
end

