-- ==== Sys2Proof/Machine/Stego.lean ====
section
/-! DEFINITION. The steganographic channel (spec/42_stego.md): its helper functions and the commands EMBED, EMBED.K,
EXTRACT and EXTRACT.K. -/

namespace Sys2Proof.Machine

/-- A PB index is an alpha channel (R170). -/
abbrev isAlpha (i : Nat) : Prop := (i + 1) % 4 = 0

/-- slot(j): the PB index of the j-th non-alpha byte (R69, R171). -/
def slot (j : Nat) : Nat := 4 * (j / 3) + j % 3

/-- A bit embedded into a byte (R172). -/
def lsbWrite (old : Byte) (bit : Bool) : Byte :=
  (old &&& 0xFE#8) ||| (BitVec.ofBool bit).setWidth 8

/-- EmbedBits(p): the bits of a payload text and its terminator (R174). -/
def embedBits (p : Text) : Bits := t2b (p ++ [sentinel])

/-- The write loop of EMBED, from slot `j` on (R178): each byte is read and written back with its payload bit. -/
def embedLoop (pb : Memory 8) (j : Nat) : Bits → Except Fault (Memory 8)
  | [] => .ok pb
  | bit :: rest =>
    match memRead .pb pb (slot j) with
    | .error f => .error f
    | .ok old => embedLoop (pb.write (slot j) (lsbWrite old bit)) (j + 1) rest

/-- GatherLSBs: bit 0 of every non-alpha byte of an image of capacity `c`, in slot order (R175). -/
def gatherLsbs (pb : Memory 8) (c : Nat) : Except Fault Bits :=
  (memReadAll .pb pb ((List.range c).map slot)).map fun bytes => bytes.map (·.getLsbD 0)

/-- FindPayload(s): the text before the first terminator; none is `raise Error(NOTFOUND, 0)` (R176). -/
def findPayload (bits : Bits) : Option Text :=
  if sentinel ∈ b2t bits then some ((b2t bits).takeWhile (· ≠ sentinel)) else none

/-- The part EMBED and EMBED.K share: BITLEN, the capacity check before any PB access, the write loop (R173, R178). -/
def embedPayload (p : Text) (s : State) : Result :=
  let bits := embedBits p
  let t := { s with bitLen := BitVec.ofNat 32 bits.length }
  if s.capacityBits < bits.length then t.raise .capacity 0
  else orFault (embedLoop s.pb 0 bits) fun pb => { t with pb := pb }.returnOk

/-- EMBED (R178). -/
def execEmbed (s : State) : Result :=
  s.validated [.v1, .v2, .v3, .v4] <|
    orFault s.messageText fun m =>
    embedPayload m s.withCapacity

/-- EMBED.K (R179). -/
def execEmbedK (s : State) : Result :=
  s.validated [.v1, .v2, .v3, .v4, .v5, .v6] <|
    orFault s.messageText fun m =>
    orFault s.keyText fun k =>
    match xorEncrypt m k with
    | some p => embedPayload p s.withCapacity
    | none => s.withCapacity.raise .decode 0x2

/-- EXTRACT (R180). -/
def execExtract (s : State) : Result :=
  s.validated [.v1, .v2] <|
    orFault (gatherLsbs s.pb s.capacityBits) fun bits =>
    match findPayload bits with
    | some r => s.withCapacity.emit r
    | none => s.withCapacity.raise .notFound 0

/-- EXTRACT.K (R181); KB is read only once a terminator is found (R262). -/
def execExtractK (s : State) : Result :=
  s.validated [.v1, .v2, .v5, .v6] <|
    orFault (gatherLsbs s.pb s.capacityBits) fun bits =>
    match findPayload bits with
    | none => s.withCapacity.raise .notFound 0
    | some r =>
      orFault s.keyText fun k =>
      match xorDecrypt r k with
      | some m => s.withCapacity.emit m
      | none => s.withCapacity.raise .decode 0x1

end Sys2Proof.Machine
end

