-- ==== Sys2Proof/Machine/Dispatch.lean ====
section
/-! DEFINITION. The meaning of every command: one arm per constructor of Instr. -/

namespace Sys2Proof.Machine

def exec (i : Instr) (s : State) : Host.Outcome State Fault Refusal :=
  match i with
  | .nop => Sys2Proof.Machine.execNop s
  | .embed => Sys2Proof.Machine.execEmbed s
  | .embedK => Sys2Proof.Machine.execEmbedK s
  | .extract => Sys2Proof.Machine.execExtract s
  | .extractK => Sys2Proof.Machine.execExtractK s
  | .xorEncK => Sys2Proof.Machine.execXorEncK s
  | .xorDecK => Sys2Proof.Machine.execXorDecK s
  | .softReset => Sys2Proof.Machine.execSoftReset s

end Sys2Proof.Machine
end

