-- ==== Sys2Proof/Machine/Bus.lean ====
section
/-! DEFINITION. One host bus access (spec/20_memory.md): what a read answers and what a write does, while the engine is
idle and while it is busy (spec/70_reset_and_hazards.md R270, R272). -/

namespace Sys2Proof.Machine

/-- The block answers an access. -/
def State.answer (resp : BusResp) (data : Word) (s : State) : State :=
  { s with reply := some { resp := resp, data := data } }

/-! ### Reads -/

/-- A register as the host reads it while its value is specified (R23, R25, R27 to R39). -/
def State.readReg (s : State) : Reg → Word
  | .id         => 0x53434D31
  | .cmd        => s.cmdLatch
  | .status     => s.statusWord
  | .ctrl       => (BitVec.ofBool s.ie).setWidth 32
  | .width      => s.width.setWidth 32
  | .height     => s.height.setWidth 32
  | .msgLen     => s.msgLen.setWidth 32
  | .keyLen     => s.keyLen.setWidth 32
  | .outLen     => s.outLen.setWidth 32
  | .errInfo    => s.errInfo
  | .bitLen     => s.bitLen
  | .capacity   => s.capacity
  | .cfgPbBytes => BitVec.ofNat 32 s.build.pbBytes
  | .cfgMbUnits => BitVec.ofNat 32 s.build.mbUnits
  | .cfgKbUnits => BitVec.ofNat 32 s.build.kbUnits
  | .cfgObUnits => BitVec.ofNat 32 s.build.obUnits
  | .sentinel   => sentinel.setWidth 32

/-- A PB byte as the host reads it; an unwritten byte is unspecified and takes its byte lane of the draw (R65, R261). -/
def State.pbByte (s : State) (draw : Word) (o lane : Nat) : Byte :=
  (s.pb.read? (o + lane)).getD (draw.extractLsb' (8 * lane) 8)

/-- A unit of MB or KB as the host reads it; an unwritten unit is unspecified (R66, R261). -/
def unitWord (m : Memory 16) (draw : Word) (u : Nat) : Word :=
  ((m.read? u).getD (draw.setWidth 16)).setWidth 32

/-- A target as the host reads it while its reads are not unspecified by R272. `draw` is the free value of this read. OB
at or past OUT_LEN is unspecified (R44; log 8). -/
def State.readTarget (s : State) (draw : Word) : Target → Word
  | .reg r => s.readReg r
  | .pb o  => s.pbByte draw o 3 ++ (s.pbByte draw o 2 ++ (s.pbByte draw o 1 ++ s.pbByte draw o 0))
  | .mb u  => unitWord s.mb draw u
  | .kb u  => unitWord s.kb draw u
  | .ob u  => unitWord (if u < s.outLen.toNat then s.ob else []) draw u

/-- The answer to a host read (R61 to R66, R272). A bus error answers data 0 (R64). -/
def State.readReply (size : Nat) (addr : Word) (s : State) : BusReply :=
  match busTarget s.build size addr with
  | none => { resp := .slverr, data := 0 }
  | some t =>
    let draw := Config.freeWord s.draws
    { resp := .okay, data := if s.busy && t.resultOfEngine then draw else s.readTarget draw t }

/-- A host read: it changes nothing but the reply and the count of draws, which are the model's own (R72; log 3). -/
def State.busRead (size : Nat) (addr : Word) (s : State) : State :=
  { s with reply := some (s.readReply size addr), draws := s.draws + 1 }

/-! ### Writes -/

/-- A write dropped while BUSY = 1 (R270): HZD is set, the answer is OKAY, and HostHazard is recorded (R271). -/
def State.dropWrite (s : State) : State :=
  { s with hzd := true, hostHazard := true }

/-- A host write to a register other than CMD (R24, R25): the fields of RW registers are stored, STATUS clears its W1C
bits, and a write to an RO register is ignored. -/
def State.writeReg (data : Word) (s : State) : Reg → State
  | .status => s.writeStatus data
  | .ctrl   => { s with ie := data.getLsbD 0 }
  | .width  => { s with width := data.setWidth 16 }
  | .height => { s with height := data.setWidth 16 }
  | .msgLen => { s with msgLen := data.setWidth 24 }
  | .keyLen => { s with keyLen := data.setWidth 24 }
  | .id | .cmd | .outLen | .errInfo | .bitLen | .capacity => s
  | .cfgPbBytes | .cfgMbUnits | .cfgKbUnits | .cfgObUnits | .sentinel => s

/-- A host write of one pixel to the PB window, the byte at the lowest index in the low bits (R65). -/
def writePixel (pb : Memory 8) (o : Nat) (data : Word) : Memory 8 :=
  pb.writeFrom o
    [data.extractLsb' 0 8, data.extractLsb' 8 8, data.extractLsb' 16 8, data.extractLsb' 24 8]

/-- A host write to CMD while BUSY = 0 (R28, R229): SOFT_RESET takes effect at once, every other word is accepted. -/
def State.writeCmd (data : Word) (s : State) : Result :=
  if data = 0x0000000F#32 then exec .softReset s else .next (s.accept data)

/-- A host write to a mapped target that is not dropped (R24, R65, R66). -/
def State.writeTarget (data : Word) (s : State) : Target → Result
  | .reg .cmd => s.writeCmd data
  | .reg r => .next (s.writeReg data r)
  | .pb o => .next { s with pb := writePixel s.pb o data }
  | .mb u => .next { s with mb := s.mb.write u (data.setWidth 16) }
  | .kb u => .next { s with kb := s.kb.write u (data.setWidth 16) }
  | .ob _ => .next s

/-- A host write of `size` bytes with the given byte lanes (R61 to R64, R73, R270). -/
def State.busWrite (size : Nat) (lanes : BitVec 4) (addr data : Word) (s : State) : Result :=
  match (if lanes = 0xF#4 then busTarget s.build size addr else none) with
  | none => .next (s.answer .slverr 0)
  | some t =>
    if s.busy && t.inputOfEngine then .next (s.dropWrite.answer .okay 0)
    else (s.answer .okay 0).writeTarget data t

end Sys2Proof.Machine
end

