-- ==== Sys2Proof/Machine/Agents.lean ====
section
/-! DEFINITION. One turn of each agent (spec/00_scope.md R11): the engine's step (spec/60_exceptions.md R230) and the host's
next operation (spec/30_encoding.md R101). -/

namespace Sys2Proof.Machine

/-- The engine's turn (R230): while BUSY = 1 it performs the command that CMD_LATCH decodes to, or completes an illegal
word (R201); while BUSY = 0 it has nothing to do. -/
def State.engineTurn (s : State) : Result :=
  if s.busy then
    match decode s.cmdLatch with
    | .ok i => exec i s
    | .error _ => execIllegal s.cmdLatch s
  else .next s

/-- One read of a POLL (R101): the operation is done when (data AND mask) = value, and is repeated otherwise. -/
def State.pollOnce (addr mask value : Word) (rest : List HostOp) (s : State) : State :=
  if (s.readReply 4 addr).data &&& mask = value then { s.busRead 4 addr with program := rest }
  else s.busRead 4 addr

/-- The host's turn: its next operation, or nothing when its program has ended (R74, R101, R264). -/
def State.hostTurn (s : State) : Result :=
  match s.program with
  | [] => .next s
  | .write size lanes addr data :: rest => { s with program := rest }.busWrite size lanes addr data
  | .read size addr :: rest => .next ({ s with program := rest }.busRead size addr)
  | .poll addr mask value :: rest => .next (s.pollOnce addr mask value rest)
  | .awaitIrq :: rest => .next (if s.irq then { s with program := rest } else s)

/-- Whose turn it is (log 4): the schedule's first entry; after the schedule, the engine while BUSY = 1, which is the weak
fairness of R230 and R277, and the host otherwise. -/
def State.turn (s : State) : Turn :=
  match s.schedule with
  | t :: _ => t
  | [] => if s.busy then .engine else .host

end Sys2Proof.Machine
end

