-- ==== Sys2Proof/Machine/Step.lean ====
section
/-! DEFINITION. One step of the machine: the turn of one agent. -/

namespace Sys2Proof.Machine

/-- One step: the agent whose turn it is moves once, and its entry of the schedule is used up (R11, R236, R260). -/
def step (s : State) : Host.Outcome State Fault Refusal :=
  let t := { s with schedule := s.schedule.tail }
  match s.turn with
  | .engine => t.engineTurn
  | .host => t.hostTurn
  | .rst => .next t.hardwareReset

/-- Makes an agent's turn the next one; nothing needs to be added where it is next already. -/
def State.giveTurn (a : Turn) (s : State) : State :=
  if s.turn = a then s else { s with schedule := a :: s.schedule }

/-- `s` with the command word `w` brought to the point where the next step performs it (log 5). A SOFT_RESET word is the
idle block's next host write to CMD, which performs it (R202); every other word has been accepted and the engine is next
(R229, R230). -/
def State.withFetchWord (s : State) (nbits w : Nat) : State :=
  match tableWord nbits w with
  | none => s
  | some word =>
    if word = 0x0000000F#32 then
      { s with busy := false, program := .write 4 0xF#4 0x004 word :: s.program }.giveTurn .host
    else (s.accept word).giveTurn .engine

end Sys2Proof.Machine
end

