-- ==== Sys2Proof/Machine/HostProgram.lean ====
section
/-! DEFINITION. Host programs (spec/30_encoding.md R101 to R104): the assembly syntax as lists of bus operations, a
program's encoding, and the well-formed ones. -/

namespace Sys2Proof.Machine

/-! ### Base operations and mnemonics -/

/-- `WR A, D` (R101). -/
def HostOp.wr (addr data : Word) : HostOp := .write 4 0xF#4 addr data

/-- `RD A` (R101). -/
def HostOp.rd (addr : Word) : HostOp := .read 4 addr

/-- A command mnemonic, the write of its word to CMD (R102). -/
def HostOp.cmd (i : Instr) : HostOp := .wr 0x004 (encode i)

/-- `CMDW w`, the write of any word to CMD (R102). -/
def HostOp.cmdw (w : Word) : HostOp := .wr 0x004 w

/-- `WAIT` (R103). -/
def HostOp.wait : HostOp := .poll 0x008 0x1 0x0

/-- `CLRDONE` (R103). -/
def HostOp.clrDone : HostOp := .wr 0x008 0x2

/-- `CLRHZD` (R103). -/
def HostOp.clrHzd : HostOp := .wr 0x008 0x4

/-- `IRQON` (R103). -/
def HostOp.irqOn : HostOp := .wr 0x00C 0x1

/-- `IRQOFF` (R103). -/
def HostOp.irqOff : HostOp := .wr 0x00C 0x0

/-- `SETDIM W, H` (R103). -/
def setDim (w h : Word) : List HostOp := [.wr 0x010 w, .wr 0x014 h]

/-- `LDPIX p, r, g, b, a` (R103). -/
def ldPix (p : Nat) (r g b a : Byte) : HostOp :=
  .wr (BitVec.ofNat 32 (0x01000000 + 4 * p)) (a ++ (b ++ (g ++ r)))

/-- `FILLPIX n, r, g, b, a` (R103). -/
def fillPix (n : Nat) (r g b a : Byte) : List HostOp :=
  (List.range n).map fun p => ldPix p r g b a

/-- One unit a word from an offset on (R66, R98). -/
def storeUnits (base : Nat) (t : Text) : List HostOp :=
  t.mapIdx fun k c => .wr (BitVec.ofNat 32 (base + 4 * k)) (c.setWidth 32)

/-- `LDMSG "s"` (R103). -/
def ldMsg (t : Text) : List HostOp :=
  storeUnits 0x02000000 t ++ [.wr 0x018 (BitVec.ofNat 32 t.length)]

/-- `LDKEY "s"` (R103). -/
def ldKey (t : Text) : List HostOp :=
  storeUnits 0x03000000 t ++ [.wr 0x01C (BitVec.ofNat 32 t.length)]

/-- `RDOUT n` (R103). -/
def rdOut (n : Nat) : List HostOp :=
  (List.range n).map fun k => .rd (BitVec.ofNat 32 (0x04000000 + 4 * k))

/-! ### Encoding -/

/-- An entry of a program's encoding, one constructor per line of R101's encoding column. -/
inductive ProgramEntry where
  /-- The pair (A, D) of a write. -/
  | write (addr data : Word)
  /-- The entry (A, read) of a read. -/
  | read (addr : Word)
  /-- The loop of (A, read) of a POLL. -/
  | readLoop (addr : Word)
  deriving DecidableEq, Repr

/-- The entry of one operation (R101). Waiting for `irq` is no bus operation and has none (log 12). -/
def HostOp.entry : HostOp → Option ProgramEntry
  | .write _ _ addr data => some (.write addr data)
  | .read _ addr => some (.read addr)
  | .poll addr _ _ => some (.readLoop addr)
  | .awaitIrq => none

/-- A program's encoding: its write pairs, read entries and loops of read entries, in order (R101). -/
def programEncoding (p : List HostOp) : List ProgramEntry := p.filterMap HostOp.entry

/-! ### Well-formed programs -/

/-- The target an operation writes, if it is a bus-valid write. -/
def HostOp.writes (b : Build) : HostOp → Option Target
  | .write size lanes addr _ => if lanes = 0xF#4 then busTarget b size addr else none
  | .read .. | .poll .. | .awaitIrq => none

/-- The target an operation reads, if it is a bus-valid read. -/
def HostOp.reads (b : Build) : HostOp → Option Target
  | .read size addr => busTarget b size addr
  | .poll addr _ _ => busTarget b 4 addr
  | .write .. | .awaitIrq => none

/-- An operation that must wait for the command in flight: a write to CMD, WIDTH, HEIGHT, MSG_LEN, KEY_LEN or a PB, MB or
KB window, or a read of PB, OB or a result register (R104). -/
def HostOp.mustWait (b : Build) (op : HostOp) : Bool :=
  (op.writes b).any Target.inputOfEngine || (op.reads b).any Target.resultOfEngine

/-- An operation that starts a command: a write to CMD of a word other than SOFT_RESET's (R104, R229). -/
def HostOp.startsCommand (b : Build) (op : HostOp) : Bool :=
  match op with
  | .write _ _ _ data => decide (op.writes b = some (.reg .cmd)) && decide (data ≠ 0x0000000F#32)
  | .read .. | .poll .. | .awaitIrq => false

/-- Well-formed programs (R104); `pending` says that a command was started and no WAIT has followed it yet (log 13).
DESIGN CHOICE (log 13): a command after which the program lists no access that must wait needs no WAIT of its own, so a
program may end on one. R104 asks for the WAIT `before the program's next write` and leaves open what holds without one. -/
def wellFormedProgram (b : Build) : Bool → List HostOp → Bool
  | _, [] => true
  | pending, op :: rest =>
    if op = HostOp.wait then wellFormedProgram b false rest
    else !(pending && op.mustWait b) && wellFormedProgram b (pending || op.startsCommand b) rest

end Sys2Proof.Machine
end

