-- ==== Sys2Proof/Safety.lean ====
section
/-! DEFINITION. What counts as a safe run: the invariant of the block, the states at which a run has ended and what is
observed there (spec/70_reset_and_hazards.md R278), and the discipline of a well-formed host program (R104). -/

namespace Sys2Proof.Machine

/-- The error codes a completion can leave in STATUS.ERR (R221): never CIPHER, never a reserved code. -/
abbrev legalErr (e : BitVec 4) : Prop :=
  e = ErrCode.none.code ∨ e = ErrCode.validation.code ∨ e = ErrCode.capacity.code ∨ e = ErrCode.notFound.code ∨
  e = ErrCode.decode.code ∨ e = ErrCode.illegalCmd.code

/-- The memories are in their canonical form, inside the sizes of the build (R41 to R44). -/
abbrev State.MemoriesWf (s : State) : Prop :=
  Memory.wf s.build.pbBytes s.pb ∧ Memory.wf s.build.mbUnits s.mb ∧
  Memory.wf s.build.kbUnits s.kb ∧ Memory.wf s.build.obUnits s.ob

/-- While a command is in flight, DONE, ERR and the four result registers are 0, and the latched word is no SOFT_RESET
(R30, R32, R202, R229). -/
abbrev State.InFlightWf (s : State) : Prop :=
  s.busy = true →
    s.done = false ∧ s.err = ErrCode.none.code ∧ s.outLen = 0 ∧ s.errInfo = 0 ∧ s.bitLen = 0 ∧ s.capacity = 0 ∧
    s.cmdLatch ≠ 0x0000000F#32

/-- The result registers agree with one another (R37, R222, R224): ERR is a code that is produced; an error leaves no
output; a success leaves ERR_INFO 0; the OUT_LEN valid elements of OB hold values and lie inside OB (R13). -/
abbrev State.ResultsWf (s : State) : Prop :=
  legalErr s.err ∧ (s.err ≠ ErrCode.none.code → s.outLen = 0) ∧ (s.err = ErrCode.none.code → s.errInfo = 0) ∧
  s.outLen.toNat ≤ s.build.obUnits ∧ ∀ u < s.outLen.toNat, (s.ob.read? u).isSome

/-- HZD is set only by a dropped write, which records HostHazard (R33, R271). -/
abbrev State.HazardWf (s : State) : Prop := s.hzd = true → s.hostHazard = true

/-- The invariant of the block: it holds after reset and every step keeps it. -/
abbrev State.Inv (s : State) : Prop :=
  s.build.Valid ∧ s.MemoriesWf ∧ s.InFlightWf ∧ s.ResultsWf ∧ s.HazardWf

/-! ### Conditions on the state that a command runs under -/

/-- The image is there and fits PB: V1 and V2 pass (R223). -/
abbrev State.HasImage (s : State) : Prop :=
  s.width ≠ 0 ∧ s.height ≠ 0 ∧ 4 * s.width.toNat * s.height.toNat ≤ s.build.pbBytes

/-- The input text is there, fits MB and is written: V3 and V4 pass, and `m` is Text(MB, L) (R82, R223). -/
abbrev State.HasMessage (s : State) (m : Text) : Prop :=
  s.msgLen ≠ 0 ∧ s.msgLen.toNat ≤ s.build.mbUnits ∧ m.length = s.msgLen.toNat ∧
  ∀ (u : Nat) (h : u < m.length), s.mb.read? u = some m[u]

/-- The key is there, fits KB and is written: V5 and V6 pass, and `k` is Text(KB, KL) (R82, R223). -/
abbrev State.HasKey (s : State) (k : Text) : Prop :=
  s.keyLen ≠ 0 ∧ s.keyLen.toNat ≤ s.build.kbUnits ∧ k.length = s.keyLen.toNat ∧
  ∀ (u : Nat) (h : u < k.length), s.kb.read? u = some k[u]

/-- The L units of MB that a command reads as its text are written (R262). -/
abbrev State.MessageWritten (s : State) : Prop := ∀ u < s.msgLen.toNat, (s.mb.read? u).isSome

/-- The KL units of KB that a command reads as its key are written (R262). -/
abbrev State.KeyWritten (s : State) : Prop := ∀ u < s.keyLen.toNat, (s.kb.read? u).isSome

/-- The first `n` slots of PB are written (R262). -/
abbrev State.SlotsWritten (s : State) (n : Nat) : Prop := ∀ j < n, (s.pb.read? (slot j)).isSome

/-- `bits` is GatherLSBs(N): bit 0 of every non-alpha byte of the image, all of them written (R175). -/
abbrev State.HasLsbs (s : State) (bits : Bits) : Prop :=
  bits.length = 3 * s.width.toNat * s.height.toNat ∧
  ∀ (j : Nat) (h : j < bits.length), (s.pb.read? (slot j)).map (·.getLsbD 0) = some bits[j]

/-- The checks each command uses, in their order (R177, R223, R225). -/
def Instr.checks : Instr → List Check
  | .nop => []
  | .embed => [.v1, .v2, .v3, .v4]
  | .embedK => [.v1, .v2, .v3, .v4, .v5, .v6]
  | .extract => [.v1, .v2]
  | .extractK => [.v1, .v2, .v5, .v6]
  | .xorEncK => [.v3, .v4, .v5, .v6]
  | .xorDecK => [.v3, .v4, .v5, .v6]
  | .softReset => []

/-- It is the host's turn and its next operation is `op`. -/
abbrev State.HostNext (s : State) (op : HostOp) (rest : List HostOp) : Prop :=
  s.turn = .host ∧ s.program = op :: rest

/-! ### Host programs and runs -/

/-- The rest of the host's program is well formed, a command in flight counting as not waited for (R104). -/
abbrev State.Disciplined (s : State) : Prop := wellFormedProgram s.build s.busy s.program = true

/-- A run has ended (R278): the host has issued its last operation, no command is in flight and no model fault is
recorded. DESIGN CHOICE (log 21): R278 says nothing about a run in which `rst` was asserted part-way; this looks at the last
state only, so it counts such a run as ended too. -/
abbrev State.Finished (s : State) : Prop := s.program = [] ∧ s.busy = false ∧ s.hostHazard = false

/-- What is observed at the end of a run (R278): the registers, the written elements of PB, MB and KB, and OB up to
OUT_LEN. -/
structure Observation where
  registers : List Word
  pb : Memory 8
  mb : Memory 16
  kb : Memory 16
  output : List (Option CodeUnit)
  deriving DecidableEq, Repr

/-- The registers of R23, in the order of their offsets. -/
def allRegs : List Reg :=
  [.id, .cmd, .status, .ctrl, .width, .height, .msgLen, .keyLen, .outLen, .errInfo, .bitLen, .capacity,
   .cfgPbBytes, .cfgMbUnits, .cfgKbUnits, .cfgObUnits, .sentinel]

/-- The observation of a state (R278). -/
def State.observe (s : State) : Observation where
  registers := allRegs.map s.readReg
  pb := s.pb
  mb := s.mb
  kb := s.kb
  output := (List.range s.outLen.toNat).map s.ob.read?

end Sys2Proof.Machine
end

