-- ==== Sys2Proof/Certificates/Slice0/Obligations.lean ====
section
/-! DEFINITION. The statements for the provers. Each is a claim about the machine for every state and operand that meets its
hypotheses; its docstring names the rule of spec/ it formalises. -/

open Sys2Proof Sys2Proof.Machine

/-! ### The codec -/

/-- R120: the group of a code unit writes its value in binary, most significant bit first; up to 0xFF it has 8 digits,
above that it has more, starts with a 1 and is not cut. -/
def Obligations.GroupIsPaddedNumeral : Prop :=
  ∀ v : CodeUnit,
    bitsValue (group v) = v.toNat ∧
    (v.toNat ≤ 0xFF → (group v).length = 8) ∧
    (0xFF < v.toNat → 8 < (group v).length ∧ (group v).head? = some true)

/-- R121: T2B concatenates the groups in text order; its length is the sum of their lengths, 8 per unit when every unit
is at most 0xFF. -/
def Obligations.TextToBitsConcatenatesGroups : Prop :=
  ∀ t : Text,
    t2b t = (t.map group).flatten ∧
    (t2b t).length = (t.map fun c => max 8 (bitlen c)).sum ∧
    ((∀ c ∈ t, c.toNat ≤ 0xFF) → (t2b t).length = 8 * t.length)

/-- R123: B2T gives one code unit for each full group of 8 bits, the value of the group with its first bit the most
significant; a shorter tail is dropped, and no unit exceeds 0xFF. -/
def Obligations.BitsToTextReadsWindows : Prop :=
  ∀ b : Bits,
    (b2t b).length = b.length / 8 ∧
    ∀ (i : Nat) (h : i < (b2t b).length),
      (b2t b)[i].toNat = ((List.range 8).map fun k => (b.getD (8 * i + k) false).toNat * 2 ^ (7 - k)).sum ∧
      (b2t b)[i].toNat ≤ 0xFF

/-- R124: text to bits and back is the identity on texts of units up to 0xFF, and bits to text and back on bit strings of
full groups. -/
def Obligations.CodecRoundTrip : Prop :=
  (∀ t : Text, (∀ c ∈ t, c.toNat ≤ 0xFF) → b2t (t2b t) = t) ∧
  ∀ b : Bits, b.length % 8 = 0 → t2b (b2t b) = b

/-- From R122: up to the first unit above 0xFF the text comes back, and that unit itself does not. -/
def Obligations.WideUnitBreaksRoundTrip : Prop :=
  ∀ (pre post : Text) (v : CodeUnit), (∀ c ∈ pre, c.toNat ≤ 0xFF) → 0xFF < v.toNat →
    (b2t (t2b (pre ++ v :: post))).take pre.length = pre ∧
    (b2t (t2b (pre ++ v :: post)))[pre.length]? ≠ some v

/-- R126: the length of Base64 text, its alphabet, its range, and that it never holds SENTINEL. -/
def Obligations.BaseSixtyFourTextShape : Prop :=
  ∀ x : List Byte,
    (b64Enc x).length = 4 * ((x.length + 2) / 3) ∧
    ∀ c ∈ b64Enc x,
      ((b64Val c).isSome ∨ c = 0x3D#16) ∧ 0x2B ≤ c.toNat ∧ c.toNat ≤ 0x7A ∧ c ≠ 0x00B6#16

/-- R129: strict decoding inverts encoding; encoding inverts decoding exactly when the bits that the last group discards
are zero. -/
def Obligations.BaseSixtyFourRoundTrip : Prop :=
  (∀ x : List Byte, b64Dec (b64Enc x) = some x) ∧
  ∀ (t : Text) (x : List Byte), b64Dec t = some x →
    (b64Enc x = t ↔
      ∀ v : BitVec 6, (t[t.length - 1 - padCount t]?).bind b64Val = some v → v.toNat % 2 ^ (2 * padCount t) = 0)

/-- From R127: strict decoding fails exactly on a length that is no multiple of 4 (F1) or a unit before the counted pads
that is outside the alphabet (F2), and gives 3 bytes per group less the pads. -/
def Obligations.BaseSixtyFourDecodeIsStrict : Prop :=
  ∀ t : Text,
    (b64Dec t = none ↔
      t.length % 4 ≠ 0 ∨ ∃ (i : Nat) (h : i < t.length), i < t.length - padCount t ∧ b64Val t[i] = none) ∧
    ∀ x, b64Dec t = some x → x.length = 3 * (t.length / 4) - padCount t

/-! ### The XOR processor -/

/-- From R150, R151 and R154: xorEncrypt has a result exactly when every XORed unit is a byte, and the result is the
Base64 text of those bytes; element i uses key unit i mod the key's length. -/
def Obligations.XorEncryptIsCycledXor : Prop :=
  ∀ (m k : Text) (hk : 0 < k.length),
    (xorEncrypt m k = none ↔
      ∃ (i : Nat) (h : i < m.length), 0xFF < (m[i] ^^^ k[i % k.length]'(Nat.mod_lt i hk)).toNat) ∧
    ∀ a, xorEncrypt m k = some a →
      ∃ x : List Byte, a = b64Enc x ∧ x.length = m.length ∧
        ∀ (i : Nat) (h : i < m.length) (h' : i < x.length),
          x[i].toNat = (m[i] ^^^ k[i % k.length]'(Nat.mod_lt i hk)).toNat

/-- From R152 and R153: xorDecrypt fails exactly when Base64 decoding does, whatever the key; otherwise each decoded byte
is XORed with the whole key unit at its index modulo the key's length. -/
def Obligations.XorDecryptIsCycledXor : Prop :=
  ∀ (a k : Text) (hk : 0 < k.length),
    (xorDecrypt a k = none ↔ b64Dec a = none) ∧
    ∀ b, b64Dec a = some b →
      ∃ m, xorDecrypt a k = some m ∧ m.length = b.length ∧
        ∀ (i : Nat) (h : i < b.length) (h' : i < m.length),
          m[i] = b[i].setWidth 16 ^^^ k[i % k.length]'(Nat.mod_lt i hk)

/-- R157: where every XOR result is a byte, decrypting with the same key gives the text back. -/
def Obligations.XorRoundTrip : Prop :=
  ∀ (m k : Text) (hk : 0 < k.length),
    (∀ (i : Nat) (h : i < m.length), (m[i] ^^^ k[i % k.length]'(Nat.mod_lt i hk)).toNat ≤ 0xFF) →
    (xorEncrypt m k).bind (fun a => xorDecrypt a k) = some m

/-! ### Slots and payloads -/

/-- R171: the slots of an image are its non-alpha indices, in ascending order, 3 per pixel. -/
def Obligations.SlotsAreTheNonAlphaBytes : Prop :=
  ∀ w h : Nat,
    (List.range (3 * w * h)).map slot = (List.range (4 * w * h)).filter fun i => decide (¬ (i + 1) % 4 = 0)

/-- From R172: embedding a bit sets bit 0 to it and leaves bits 7..1 as they were. -/
def Obligations.LsbWriteSetsOnlyBitZero : Prop :=
  ∀ (old : Byte) (bit : Bool),
    (lsbWrite old bit).getLsbD 0 = bit ∧ ∀ i, 1 ≤ i → (lsbWrite old bit).getLsbD i = old.getLsbD i

/-- From R176: the payload is the text before the first terminator, and it is found exactly when there is one. -/
def Obligations.PayloadEndsAtFirstTerminator : Prop :=
  ∀ bits : Bits,
    (findPayload bits = none ↔ ¬ 0x00B6#16 ∈ b2t bits) ∧
    ∀ r, findPayload bits = some r ↔ (¬ 0x00B6#16 ∈ r ∧ ∃ rest, b2t bits = r ++ 0x00B6#16 :: rest)

/-! ### Encoding -/

/-- From R92: the eight words of the opcode map, decoded and encoded. -/
def Obligations.OpcodeMapWords : Prop :=
  ∀ p ∈ [(0x00000000#32, Instr.nop), (0x00000001#32, .embed), (0x00000011#32, .embedK), (0x00000002#32, .extract),
      (0x00000012#32, .extractK), (0x00000013#32, .xorEncK), (0x00000014#32, .xorDecK), (0x0000000F#32, .softReset)],
    (decode p.1).toOption = some p.2 ∧ encode p.2 = p.1

/-- From R92, R93 and R94: over all 32-bit words, exactly the eight words of the opcode map decode, each to its command and
each the encoding of it. Every other word is rejected, and for the first line of R94 that it meets; R94 orders no lines, and
taking them in the order it lists them is the model's reading (log 17). -/
def Obligations.DecodeIsExactMatch : Prop :=
  ∀ w : Word,
    (∀ i, decode w = .ok i ↔ encode i = w) ∧
    (∀ i, decode w = .ok i ↔
      (w, i) ∈ [(0x00000000#32, Instr.nop), (0x00000001#32, .embed), (0x00000011#32, .embedK), (0x00000002#32, .extract),
        (0x00000012#32, .extractK), (0x00000013#32, .xorEncK), (0x00000014#32, .xorDecK), (0x0000000F#32, .softReset)]) ∧
    (∀ e, decode w = .error e ↔ (commandFields w).problem = some e) ∧
    (decode w = .error .reservedBits ↔ w.toNat / 32 ≠ 0) ∧
    (decode w = .error .unassignedOp ↔ w.toNat / 32 = 0 ∧ 5 ≤ w.toNat % 16 ∧ w.toNat % 16 ≤ 14) ∧
    (decode w = .error .keyOnControl ↔
      w.toNat / 32 = 0 ∧ (w.toNat % 16 = 0 ∨ w.toNat % 16 = 15) ∧ w.toNat / 16 % 2 = 1) ∧
    (decode w = .error .keyMissing ↔
      w.toNat / 32 = 0 ∧ (w.toNat % 16 = 3 ∨ w.toNat % 16 = 4) ∧ w.toNat / 16 % 2 = 0)

/-! ### Turns: acceptance, and the step that runs a command -/

/-- From R230: on the engine's turn with a command in flight, the step is the meaning of the command that CMD_LATCH
decodes to, the turn's entry of the schedule (log 4) being used up. R93 decodes SOFT_RESET at acceptance, so no run latches its
word with BUSY = 1; that the engine's turn would run it there is the model's choice (log 6). -/
def Obligations.EngineStepRunsLatchedCommand : Prop :=
  ∀ (s : State) (i : Instr), s.turn = .engine → s.busy = true → decode s.cmdLatch = .ok i →
    step s = exec i { s with schedule := s.schedule.tail }

/-- R202: the host's write of the SOFT_RESET word to CMD takes effect at that write while BUSY = 0: every register takes
its reset value except CMD, which keeps the word, BUSY is never set and the memories are unchanged. While BUSY = 1 the
word is dropped and sets HZD. -/
def Obligations.SoftResetRunsAtCmdWrite : Prop :=
  ∀ (s : State) (rest : List HostOp), s.HostNext (.write 4 0xF#4 0x004#32 0x0000000F#32) rest →
    (s.busy = false →
      step s = .next
        { s with
          cmdLatch := 0x0000000F#32, busy := false, done := false, hzd := false, err := 0, ie := false, width := 0,
          height := 0, msgLen := 0, keyLen := 0, outLen := 0, errInfo := 0, bitLen := 0, capacity := 0,
          schedule := s.schedule.tail, program := rest, reply := some { resp := .okay, data := 0 } }) ∧
    (s.busy = true →
      step s = .next
        { s with
          hzd := true, hostHazard := true,
          schedule := s.schedule.tail, program := rest, reply := some { resp := .okay, data := 0 } })

/-- R229: the host's write of a word to CMD while BUSY = 0. The SOFT_RESET word is SOFT_RESET, run by that step; any other
word is accepted: it is latched, BUSY is set, DONE, ERR and the result registers are cleared, and HZD and everything else
is unchanged. While BUSY = 1 nothing is accepted. -/
def Obligations.AcceptanceLatchesTheWord : Prop :=
  ∀ (s : State) (w : Word) (rest : List HostOp), s.HostNext (.write 4 0xF#4 0x004#32 w) rest →
    (s.busy = false → w = 0x0000000F#32 →
      step s = exec .softReset
        { s with schedule := s.schedule.tail, program := rest, reply := some { resp := .okay, data := 0 } }) ∧
    (s.busy = false → w ≠ 0x0000000F#32 →
      step s = .next
        { s with
          cmdLatch := w, busy := true, done := false, err := 0, outLen := 0, errInfo := 0, bitLen := 0, capacity := 0,
          schedule := s.schedule.tail, program := rest, reply := some { resp := .okay, data := 0 } }) ∧
    (s.busy = true → ∃ t, step s = .next t ∧ t.cmdLatch = s.cmdLatch ∧ t.busy = true ∧ t.done = s.done)

/-- R201: an illegal word is accepted as usual, and when the engine takes its step completes with ILLEGAL_CMD and the whole
word in ERR_INFO, nothing else being changed. -/
def Obligations.IllegalWordCompletes : Prop :=
  (∀ (s : State) (w : Word) (rest : List HostOp), s.HostNext (.write 4 0xF#4 0x004#32 w) rest → s.busy = false →
    (∀ i : Instr, encode i ≠ w) →
    ∃ t, step s = .next t ∧ t.cmdLatch = w ∧ t.busy = true ∧ t.done = false ∧ t.err = 0) ∧
  ∀ s : State, s.turn = .engine → s.busy = true → (∀ i : Instr, encode i ≠ s.cmdLatch) →
    step s = .next
      { s with
        err := 0x6, errInfo := s.cmdLatch, busy := false, done := true, schedule := s.schedule.tail }

/-- From R75 and R270: a turn of the host changes nothing that a command in flight reads or will write. Only the W1C bits of
STATUS, CTRL, the hazard bits and the host's own program, answer and draws can change, and DONE is not set. -/
def Obligations.HostTurnLeavesCommandInFlight : Prop :=
  ∀ s t : State, s.turn = .host → s.busy = true → step s = .next t →
    t = { s with
          done := t.done, hzd := t.hzd, ie := t.ie, hostHazard := t.hostHazard, schedule := s.schedule.tail,
          program := t.program, reply := t.reply, draws := t.draws } ∧
    (t.done = true → s.done = true) ∧ (s.hostHazard = true → t.hostHazard = true)

/-- From R101, R46 and R76: a POLL reads its offset once per turn of the host and is done when the masked datum is its
value. At an offset with a bus error it compares the datum 0 of R64, which is the model's choice (log 11). Waiting for the
interrupt (the model's form of it: log 12) is done when `irq` is high. The count of draws is the model's own (log 3). -/
def Obligations.WaitsEndWhenTheirConditionHolds : Prop :=
  (∀ (s : State) (addr mask value : Word) (rest : List HostOp), s.HostNext (.poll addr mask value) rest →
    step s = .next
      { s with
        schedule := s.schedule.tail, reply := some (s.readReply 4 addr), draws := s.draws + 1,
        program := if (s.readReply 4 addr).data &&& mask = value then rest else s.program }) ∧
  ∀ (s : State) (rest : List HostOp), s.HostNext .awaitIrq rest →
    step s = .next
      { s with schedule := s.schedule.tail, program := if s.ie && s.done then rest else s.program }

/-! ### Each command's own effect -/

/-- R200: NOP completes with success and changes nothing else. -/
def Obligations.NopCompletes : Prop :=
  ∀ s : State, exec .nop s = .next { s with err := 0, busy := false, done := true }

/-- From R202: SOFT_RESET sets every register to its reset value except CMD, and keeps the memories. -/
def Obligations.SoftResetRestoresRegisters : Prop :=
  ∀ s : State,
    exec .softReset s = .next
      { s with
        cmdLatch := 0x0000000F#32, busy := false, done := false, hzd := false, err := 0, ie := false, width := 0,
        height := 0, msgLen := 0, keyLen := 0, outLen := 0, errInfo := 0, bitLen := 0, capacity := 0 }

/-- From R178: EMBED on a valid image and message whose payload fits, the payload's slots being written: each payload bit goes
into bit 0 of its slot, every other byte of PB is as before, BITLEN and CAPACITY are set, and nothing else changes. -/
def Obligations.EmbedWritesThePayload : Prop :=
  ∀ (s : State) (m : Text), s.MemoriesWf → s.HasImage → s.HasMessage m →
    (t2b (m ++ [0x00B6#16])).length ≤ 3 * s.width.toNat * s.height.toNat →
    s.SlotsWritten (t2b (m ++ [0x00B6#16])).length →
    ∃ pb : Memory 8,
      exec .embed s = .next
        { s with
          pb := pb, capacity := BitVec.ofNat 32 (3 * s.width.toNat * s.height.toNat),
          bitLen := BitVec.ofNat 32 (t2b (m ++ [0x00B6#16])).length, err := 0, busy := false, done := true } ∧
      (∀ (j : Nat) (h : j < (t2b (m ++ [0x00B6#16])).length), ∃ old,
        s.pb.read? (slot j) = some old ∧ pb.read? (slot j) = some (lsbWrite old (t2b (m ++ [0x00B6#16]))[j])) ∧
      ∀ i, (∀ j < (t2b (m ++ [0x00B6#16])).length, i ≠ slot j) → pb.read? i = s.pb.read? i

/-- From R179: EMBED.K does the same with the text xorEncrypt gives for the message and the key, and its payload has
8 * (4 * ceil(L / 3) + 1) bits. -/
def Obligations.EmbedKeyedWritesThePayload : Prop :=
  ∀ (s : State) (m k p : Text), s.MemoriesWf → s.HasImage → s.HasMessage m → s.HasKey k → xorEncrypt m k = some p →
    (t2b (p ++ [0x00B6#16])).length ≤ 3 * s.width.toNat * s.height.toNat →
    s.SlotsWritten (t2b (p ++ [0x00B6#16])).length →
    ∃ pb : Memory 8,
      exec .embedK s = .next
        { s with
          pb := pb, capacity := BitVec.ofNat 32 (3 * s.width.toNat * s.height.toNat),
          bitLen := BitVec.ofNat 32 (t2b (p ++ [0x00B6#16])).length, err := 0, busy := false, done := true } ∧
      (t2b (p ++ [0x00B6#16])).length = 8 * (4 * ((m.length + 2) / 3) + 1) ∧
      (∀ (j : Nat) (h : j < (t2b (p ++ [0x00B6#16])).length), ∃ old,
        s.pb.read? (slot j) = some old ∧ pb.read? (slot j) = some (lsbWrite old (t2b (p ++ [0x00B6#16]))[j])) ∧
      ∀ i, (∀ j < (t2b (p ++ [0x00B6#16])).length, i ≠ slot j) → pb.read? i = s.pb.read? i

/-- From R180: EXTRACT on a valid image with every non-alpha byte written and a terminator in its text: the text before the
first terminator goes to OB, OUT_LEN is its length, CAPACITY is set, and nothing else changes. -/
def Obligations.ExtractRecoversTheText : Prop :=
  ∀ (s : State) (bits : Bits) (r rest : Text), s.MemoriesWf → s.HasImage → s.HasLsbs bits →
    b2t bits = r ++ 0x00B6#16 :: rest → ¬ 0x00B6#16 ∈ r →
    ∃ ob : Memory 16,
      exec .extract s = .next
        { s with
          ob := ob, outLen := BitVec.ofNat 24 r.length,
          capacity := BitVec.ofNat 32 (3 * s.width.toNat * s.height.toNat), err := 0, busy := false, done := true } ∧
      ∀ u, ob.read? u = if u < r.length then r[u]? else s.ob.read? u

/-- From R181: EXTRACT.K does the same with the text xorDecrypt gives for what was found and the key. -/
def Obligations.ExtractKeyedRecoversTheText : Prop :=
  ∀ (s : State) (bits : Bits) (r rest k m : Text), s.MemoriesWf → s.HasImage → s.HasKey k → s.HasLsbs bits →
    b2t bits = r ++ 0x00B6#16 :: rest → ¬ 0x00B6#16 ∈ r → xorDecrypt r k = some m →
    ∃ ob : Memory 16,
      exec .extractK s = .next
        { s with
          ob := ob, outLen := BitVec.ofNat 24 m.length,
          capacity := BitVec.ofNat 32 (3 * s.width.toNat * s.height.toNat), err := 0, busy := false, done := true } ∧
      ∀ u, ob.read? u = if u < m.length then m[u]? else s.ob.read? u

/-- From R155: XOR_ENC.K puts xorEncrypt of the message and the key into OB, with its length, 4 * ceil(L / 3), in OUT_LEN;
nothing else changes. -/
def Obligations.XorEncryptToOutput : Prop :=
  ∀ (s : State) (m k a : Text), s.MemoriesWf → s.HasMessage m → s.HasKey k → xorEncrypt m k = some a →
    ∃ ob : Memory 16,
      exec .xorEncK s = .next
        { s with ob := ob, outLen := BitVec.ofNat 24 a.length, err := 0, busy := false, done := true } ∧
      a.length = 4 * ((m.length + 2) / 3) ∧
      ∀ u, ob.read? u = if u < a.length then a[u]? else s.ob.read? u

/-- From R156: XOR_DEC.K puts xorDecrypt of the artifact and the key into OB, with its length in OUT_LEN; nothing else
changes. -/
def Obligations.XorDecryptToOutput : Prop :=
  ∀ (s : State) (a k m : Text), s.MemoriesWf → s.HasMessage a → s.HasKey k → xorDecrypt a k = some m →
    ∃ ob : Memory 16,
      exec .xorDecK s = .next
        { s with ob := ob, outLen := BitVec.ofNat 24 m.length, err := 0, busy := false, done := true } ∧
      m.length ≤ a.length ∧
      ∀ u, ob.read? u = if u < m.length then m[u]? else s.ob.read? u

/-! ### Errors -/

/-- R223: when each check fails, its number, and that a command raises VALIDATION with the first
check it uses that fails, nothing else being written. -/
def Obligations.FirstFailingCheckIsReported : Prop :=
  (∀ s : State,
    (Check.v1.fails s = true ↔ s.width = 0 ∨ s.height = 0) ∧
    (Check.v2.fails s = true ↔ s.build.pbBytes < 4 * s.width.toNat * s.height.toNat) ∧
    (Check.v3.fails s = true ↔ s.msgLen = 0) ∧ (Check.v4.fails s = true ↔ s.build.mbUnits < s.msgLen.toNat) ∧
    (Check.v5.fails s = true ↔ s.keyLen = 0) ∧ (Check.v6.fails s = true ↔ s.build.kbUnits < s.keyLen.toNat)) ∧
  [Check.v1, .v2, .v3, .v4, .v5, .v6].map Check.info = [0x01, 0x02, 0x03, 0x04, 0x05, 0x06] ∧
  ∀ (i : Instr) (s : State) (before after : List Check) (c : Check), Instr.checks i = before ++ c :: after →
    (∀ d ∈ before, d.fails s = false) → c.fails s = true →
    exec i s = .next { s with err := 0x1, errInfo := c.info, busy := false, done := true }

/-- R173: a payload longer than the capacity raises CAPACITY before any PB byte is read or written, with BITLEN and
CAPACITY set, and a payload that fits, equality included, never raises it; for EMBED and for EMBED.K. -/
def Obligations.OversizePayloadRaisesCapacity : Prop :=
  ∀ (s : State) (m : Text), s.HasImage → s.HasMessage m →
    (3 * s.width.toNat * s.height.toNat < (t2b (m ++ [0x00B6#16])).length →
      exec .embed s = .next
        { s with
          capacity := BitVec.ofNat 32 (3 * s.width.toNat * s.height.toNat),
          bitLen := BitVec.ofNat 32 (t2b (m ++ [0x00B6#16])).length,
          err := 0x2, errInfo := 0, busy := false, done := true }) ∧
    ((t2b (m ++ [0x00B6#16])).length ≤ 3 * s.width.toNat * s.height.toNat →
      ∀ t, exec .embed s = .next t → t.err ≠ 0x2) ∧
    ∀ (k p : Text), s.HasKey k → xorEncrypt m k = some p →
      (3 * s.width.toNat * s.height.toNat < (t2b (p ++ [0x00B6#16])).length →
        exec .embedK s = .next
          { s with
            capacity := BitVec.ofNat 32 (3 * s.width.toNat * s.height.toNat),
            bitLen := BitVec.ofNat 32 (t2b (p ++ [0x00B6#16])).length,
            err := 0x2, errInfo := 0, busy := false, done := true }) ∧
      ((t2b (p ++ [0x00B6#16])).length ≤ 3 * s.width.toNat * s.height.toNat →
        ∀ t, exec .embedK s = .next t → t.err ≠ 0x2)

/-- From R176, R180, R181: an image whose text holds no terminator gives NOTFOUND, before any key unit is read; here for
EXTRACT and for EXTRACT.K. -/
def Obligations.MissingTerminatorRaisesNotFound : Prop :=
  ∀ (s : State) (bits : Bits), s.HasImage → s.HasLsbs bits → ¬ 0x00B6#16 ∈ b2t bits →
    exec .extract s = .next
      { s with
        capacity := BitVec.ofNat 32 (3 * s.width.toNat * s.height.toNat),
        err := 0x3, errInfo := 0, busy := false, done := true } ∧
    (s.keyLen ≠ 0 → s.keyLen.toNat ≤ s.build.kbUnits →
      exec .extractK s = .next
        { s with
          capacity := BitVec.ofNat 32 (3 * s.width.toNat * s.height.toNat),
          err := 0x3, errInfo := 0, busy := false, done := true })

/-- From R128, R151: a result that is no byte raises DECODE with 2 (EMBED.K, XOR_ENC.K), malformed Base64 raises DECODE
with 1 (EXTRACT.K, XOR_DEC.K), and no memory is written. -/
def Obligations.TransformFailureRaisesDecode : Prop :=
  ∀ (s : State) (m k : Text), s.HasKey k →
    (s.HasMessage m → xorEncrypt m k = none →
      exec .xorEncK s = .next { s with err := 0x4, errInfo := 0x2, busy := false, done := true } ∧
      (s.HasImage →
        exec .embedK s = .next
          { s with
            capacity := BitVec.ofNat 32 (3 * s.width.toNat * s.height.toNat),
            err := 0x4, errInfo := 0x2, busy := false, done := true })) ∧
    (s.HasMessage m → b64Dec m = none →
      exec .xorDecK s = .next { s with err := 0x4, errInfo := 0x1, busy := false, done := true }) ∧
    ∀ (bits : Bits) (r rest : Text), s.HasImage → s.HasLsbs bits → b2t bits = r ++ 0x00B6#16 :: rest →
      ¬ 0x00B6#16 ∈ r → b64Dec r = none →
      exec .extractK s = .next
        { s with
          capacity := BitVec.ofNat 32 (3 * s.width.toNat * s.height.toNat),
          err := 0x4, errInfo := 0x1, busy := false, done := true }

/-- From R262: the model fault UninitRead names an element whose `written` bit is 0, and, once its checks pass, each
command meets it exactly when an element that R262 lists for it is unwritten. XOR_ENC.K and XOR_DEC.K: a message or key unit;
EXTRACT: a slot of the image; EXTRACT.K: a slot, or a key unit once a terminator is found; EMBED: a message unit, or a slot
of a payload that fits; EMBED.K: a message unit, a key unit, or a slot of a payload that fits. NOP never meets it. -/
def Obligations.UnwrittenReadIsTheFault : Prop :=
  (∀ (i : Instr) (s : State) (mem : BlockMem) (a : Nat),
    exec i s = .fault (.uninitRead mem a) → mem ≠ .ob ∧ s.written mem a = false) ∧
  ∀ (i : Instr) (s : State), s.MemoriesWf → (∀ c ∈ Instr.checks i, c.fails s = false) →
    ((∃ f, exec i s = .fault f) ↔
      match i with
      | .nop | .softReset => False
      | .xorEncK | .xorDecK => ¬ s.MessageWritten ∨ ¬ s.KeyWritten
      | .extract => ¬ s.SlotsWritten (3 * s.width.toNat * s.height.toNat)
      | .extractK =>
        ¬ s.SlotsWritten (3 * s.width.toNat * s.height.toNat) ∨
        ∃ bits, s.HasLsbs bits ∧ 0x00B6#16 ∈ b2t bits ∧ ¬ s.KeyWritten
      | .embed =>
        ¬ s.MessageWritten ∨
        ∃ m, s.HasMessage m ∧ (t2b (m ++ [0x00B6#16])).length ≤ 3 * s.width.toNat * s.height.toNat ∧
          ¬ s.SlotsWritten (t2b (m ++ [0x00B6#16])).length
      | .embedK =>
        ¬ s.MessageWritten ∨ ¬ s.KeyWritten ∨
        ∃ m k p, s.HasMessage m ∧ s.HasKey k ∧ xorEncrypt m k = some p ∧
          (t2b (p ++ [0x00B6#16])).length ≤ 3 * s.width.toNat * s.height.toNat ∧
          ¬ s.SlotsWritten (t2b (p ++ [0x00B6#16])).length)

/-- From R220, R221, R230: a command of the engine never is refused; it completes once, with BUSY 0, DONE 1 and a code
that this block produces, or stops with the model fault. -/
def Obligations.CommandCompletesOrFaults : Prop :=
  ∀ (i : Instr) (s : State), i ≠ .softReset →
    (∃ t, exec i s = .next t ∧ t.busy = false ∧ t.done = true ∧ legalErr t.err ∧ t.err ≠ 0x6) ∨
    ∃ f, exec i s = .fault f

/-- From R231: a command that ends with an error writes no block memory, keeps OUT_LEN, and writes ERR and ERR_INFO, BUSY and
DONE, and at most BITLEN and CAPACITY besides. -/
def Obligations.ErrorWritesNoMemory : Prop :=
  ∀ (i : Instr) (s t : State), i ≠ .softReset → exec i s = .next t → t.err ≠ 0 →
    t = { s with
          err := t.err, errInfo := t.errInfo, bitLen := t.bitLen, capacity := t.capacity, busy := false, done := true }

/-! ### Frames -/

/-- From R42, R43, R48: what the engine's commands leave unchanged. No command writes an input, MB or KB, HZD, CTRL or
CMD_LATCH; only EMBED and EMBED.K write PB and BITLEN, only the four output commands write OB and OUT_LEN, and only the
four commands that use the image write CAPACITY. -/
def Obligations.EngineCommandFrame : Prop :=
  ∀ (i : Instr) (s t : State), i ≠ .softReset → exec i s = .next t →
    t = { s with
          err := t.err, errInfo := t.errInfo, outLen := t.outLen, bitLen := t.bitLen, capacity := t.capacity,
          pb := t.pb, ob := t.ob, busy := false, done := true } ∧
    (i ≠ .embed ∧ i ≠ .embedK → t.pb = s.pb ∧ t.bitLen = s.bitLen) ∧
    (i = .nop ∨ i = .embed ∨ i = .embedK → t.ob = s.ob ∧ t.outLen = s.outLen) ∧
    (i = .nop ∨ i = .xorEncK ∨ i = .xorDecK → t.capacity = s.capacity)

/-- From R187: EMBED and EMBED.K never change an alpha byte, bits 7..1 of any byte, bit 0 of a slot at or past BITLEN, or a
byte at or past N. -/
def Obligations.EmbedChangesOnlyPayloadLsbs : Prop :=
  ∀ (i : Instr) (s t : State), i = .embed ∨ i = .embedK → s.build.Valid → s.MemoriesWf → exec i s = .next t →
    (∀ a, (a + 1) % 4 = 0 ∨ 4 * s.width.toNat * s.height.toNat ≤ a → t.pb.read? a = s.pb.read? a) ∧
    (∀ a b, 1 ≤ b → (t.pb.read? a).map (·.getLsbD b) = (s.pb.read? a).map (·.getLsbD b)) ∧
    ∀ j, t.bitLen.toNat ≤ j → t.pb.read? (slot j) = s.pb.read? (slot j)

/-- From R46 and R226: a completion, whether success or error, leaves `irq` at CTRL.IE, and SOFT_RESET leaves it low. The
last clause is the engine's step, whose completion may also be that of an illegal word (R201); the SOFT_RESET word is never
in flight (R202). -/
def Obligations.CompletionDrivesIrq : Prop :=
  (∀ (i : Instr) (s t : State), exec i s = .next t →
    t.irq = (t.ie && t.done) ∧ (i ≠ .softReset → t.irq = s.ie) ∧ (i = .softReset → t.irq = false)) ∧
  ∀ s t : State, s.turn = .engine → s.busy = true → s.cmdLatch ≠ 0x0000000F#32 → step s = .next t →
    t.done = true ∧ t.ie = s.ie ∧ t.irq = s.ie

/-! ### Reset -/

/-- R260: the register values and the low `irq` after power-on reset, for every build; and the same whenever the reset
input is asserted, a command in flight being abandoned. Every `written` bit is 0 then (R261). -/
def Obligations.HardwareResetValues : Prop :=
  (∀ b : Build,
    allRegs.map (State.powerOn b).readReg =
      [0x53434D31, 0, 0, 0, 0, 0, 0, 0, 0, 0, 0, 0, BitVec.ofNat 32 b.pbBytes, BitVec.ofNat 32 b.mbUnits,
       BitVec.ofNat 32 b.kbUnits, BitVec.ofNat 32 b.obUnits, 0x000000B6] ∧
    (State.powerOn b).irq = false ∧ (State.powerOn b).busy = false ∧
    ∀ mem a, (State.powerOn b).written mem a = false) ∧
  ∀ s : State, s.turn = .rst →
    ∃ t, step s = .next t ∧
      allRegs.map t.readReg = allRegs.map (State.powerOn s.build).readReg ∧
      t.irq = false ∧ t.busy = false ∧ t.build = s.build ∧ ∀ mem a, t.written mem a = false

/-- From R260 and R261: the invariant of the block holds after power-on reset of every valid build, and at `State.reset`, whose build is the
model's choice (log 1). -/
def Obligations.ResetMeetsInvariant : Prop :=
  (∀ b : Build, b.Valid → (State.powerOn b).Inv) ∧ State.reset.Inv

/-! ### Invariants of every step -/

/-- From the rules named at its end: the invariant of the block (memories in canonical form and in range, a command in flight with cleared results, error
codes that are produced, OUT_LEN valid units of output inside OB, HZD only with HostHazard recorded) is kept by every step
from every state that has it (R13, R30 to R33, R37, R41 to R44, R221, R224, R271). -/
def Obligations.StepKeepsInvariant : Prop :=
  ∀ s t : State, s.Inv → step s = .next t → t.Inv

/-- From R104 (as log 13 reads it), R270 and R271: while the rest of the host's program is well formed, no step drops a
write: HostHazard is not recorded and HZD not set by any step, under every schedule, and the rest stays well formed. -/
def Obligations.WellFormedProgramMeetsNoHazard : Prop :=
  ∀ s t : State, s.Disciplined → step s = .next t →
    t.Disciplined ∧ t.hostHazard = s.hostHazard ∧ (t.hzd = true → s.hzd = true)

/-- From R230, R277 and R260: whatever the schedule (the model's form of fairness: log 4), a command in flight has, by the step
after the schedule's last entry, completed with DONE = 1 and a code that this block produces, or been abandoned by a reset that
the schedule holds, or stopped with the model fault. The SOFT_RESET word is never in flight (R202; log 6). -/
def Obligations.CommandEndsAfterTheSchedule : Prop :=
  ∀ s : State, s.busy = true → s.cmdLatch ≠ 0x0000000F#32 →
    ∃ k, k ≤ s.schedule.length + 1 ∧
      ((∃ t, Sys2Proof.core.run k s = .next t ∧ t.busy = false ∧
          (¬ Turn.rst ∈ s.schedule → t.done = true ∧ legalErr t.err)) ∨
        ∃ f, Sys2Proof.core.run k s = .fault f)

/-! ### The host bus -/

/-- R61: the address map of a valid build: the registers' offsets, the four windows, and nothing else. -/
def Obligations.AddressMapOfTheBlock : Prop :=
  ∀ (b : Build) (addr : Word), b.Valid →
    (∀ r, decodeAddr b addr = some (.reg r) ↔
      (addr.toNat, r) ∈ (List.range 17).zipWith (fun n r => (4 * n, r)) allRegs) ∧
    (∀ o, decodeAddr b addr = some (.pb o) ↔ addr.toNat = 0x01000000 + o ∧ o < b.pbBytes) ∧
    (∀ u, decodeAddr b addr = some (.mb u) ↔ 0x02000000 ≤ addr.toNat ∧ u = (addr.toNat - 0x02000000) / 4 ∧ u < b.mbUnits) ∧
    (∀ u, decodeAddr b addr = some (.kb u) ↔ 0x03000000 ≤ addr.toNat ∧ u = (addr.toNat - 0x03000000) / 4 ∧ u < b.kbUnits) ∧
    (∀ u, decodeAddr b addr = some (.ob u) ↔ 0x04000000 ≤ addr.toNat ∧ u = (addr.toNat - 0x04000000) / 4 ∧ u < b.obUnits)

/-- From R62, R63 and R64: an access of another size, with a lane disabled, misaligned or unmapped is answered with SLVERR and
data 0 and changes nothing of the block; the count of draws is the model's own (log 3). -/
def Obligations.BusErrorChangesNothing : Prop :=
  ∀ (s : State) (size : Nat) (lanes : BitVec 4) (addr data : Word) (rest : List HostOp),
    (s.HostNext (.write size lanes addr data) rest →
      size ≠ 4 ∨ lanes ≠ 0xF#4 ∨ addr.toNat % 4 ≠ 0 ∨ decodeAddr s.build addr = none →
      step s = .next
        { s with schedule := s.schedule.tail, program := rest, reply := some { resp := .slverr, data := 0 } }) ∧
    (s.HostNext (.read size addr) rest → size ≠ 4 ∨ addr.toNat % 4 ≠ 0 ∨ decodeAddr s.build addr = none →
      step s = .next
        { s with
          schedule := s.schedule.tail, program := rest, reply := some { resp := .slverr, data := 0 },
          draws := s.draws + 1 })

/-- From R270 and R271: a bus-valid write to CMD, WIDTH, HEIGHT, MSG_LEN, KEY_LEN or the PB, MB or KB window while BUSY = 1 is
dropped: it sets HZD, records HostHazard, is answered OKAY, and changes nothing else. -/
def Obligations.BusyWriteIsDropped : Prop :=
  ∀ (s : State) (addr data : Word) (rest : List HostOp) (t : Target), s.HostNext (.write 4 0xF#4 addr data) rest →
    s.busy = true → addr.toNat % 4 = 0 → decodeAddr s.build addr = some t →
    (t ∈ [Target.reg .cmd, .reg .width, .reg .height, .reg .msgLen, .reg .keyLen] ∨
      ∃ n, t = .pb n ∨ t = .mb n ∨ t = .kb n) →
    step s = .next
      { s with
        hzd := true, hostHazard := true, schedule := s.schedule.tail, program := rest,
        reply := some { resp := .okay, data := 0 } }

/-- From R24, R25 and R26: writes to registers. STATUS clears DONE and HZD where the datum has a 1 and CTRL stores IE, whether or
not BUSY is set; WIDTH, HEIGHT, MSG_LEN and KEY_LEN store their fields while BUSY = 0; the RO registers ignore writes. -/
def Obligations.RegisterWritesFollowAccessTypes : Prop :=
  ∀ (s : State) (addr data : Word) (rest : List HostOp), s.HostNext (.write 4 0xF#4 addr data) rest →
    let t : State :=
      { s with schedule := s.schedule.tail, program := rest, reply := some { resp := .okay, data := 0 } }
    (addr = 0x008#32 → step s = .next
      { t with done := s.done && !data.getLsbD 1, hzd := s.hzd && !data.getLsbD 2 }) ∧
    (addr = 0x00C#32 → step s = .next { t with ie := data.getLsbD 0 }) ∧
    (s.busy = false → addr = 0x010#32 → step s = .next { t with width := data.setWidth 16 }) ∧
    (s.busy = false → addr = 0x014#32 → step s = .next { t with height := data.setWidth 16 }) ∧
    (s.busy = false → addr = 0x018#32 → step s = .next { t with msgLen := data.setWidth 24 }) ∧
    (s.busy = false → addr = 0x01C#32 → step s = .next { t with keyLen := data.setWidth 24 }) ∧
    (addr ∈ [0x000#32, 0x020#32, 0x024#32, 0x028#32, 0x02C#32, 0x030#32, 0x034#32, 0x038#32, 0x03C#32, 0x040#32] →
      step s = .next t)

/-- From R23, R25 and R27 to R39: what each register reads as while its value is specified, reserved bits reading 0. The result
registers are read while BUSY = 0 only (R272). -/
def Obligations.RegisterReadsFollowTheMap : Prop :=
  ∀ s : State,
    (∀ p ∈ [(0x000#32, 0x53434D31#32), (0x004#32, s.cmdLatch),
        (0x008#32, BitVec.ofNat 32 (s.busy.toNat + 2 * s.done.toNat + 4 * s.hzd.toNat + 16 * s.err.toNat)),
        (0x00C#32, BitVec.ofNat 32 s.ie.toNat), (0x010#32, BitVec.ofNat 32 s.width.toNat),
        (0x014#32, BitVec.ofNat 32 s.height.toNat), (0x018#32, BitVec.ofNat 32 s.msgLen.toNat),
        (0x01C#32, BitVec.ofNat 32 s.keyLen.toNat), (0x030#32, BitVec.ofNat 32 s.build.pbBytes),
        (0x034#32, BitVec.ofNat 32 s.build.mbUnits), (0x038#32, BitVec.ofNat 32 s.build.kbUnits),
        (0x03C#32, BitVec.ofNat 32 s.build.obUnits), (0x040#32, 0x000000B6#32)],
      s.readReply 4 p.1 = { resp := .okay, data := p.2 }) ∧
    (s.busy = false →
      ∀ p ∈ [(0x020#32, BitVec.ofNat 32 s.outLen.toNat), (0x024#32, s.errInfo), (0x028#32, s.bitLen),
          (0x02C#32, s.capacity)],
        s.readReply 4 p.1 = { resp := .okay, data := p.2 })

/-- From R272: while BUSY = 1 a read of the PB or OB window or of a result register is a draw (a free value: log 3, log 9), whatever the state holds there,
and every other mapped read is what it is while BUSY = 0. -/
def Obligations.BusyReadsOfResultsAreDraws : Prop :=
  ∀ (s : State) (addr : Word) (t : Target), addr.toNat % 4 = 0 → decodeAddr s.build addr = some t → s.busy = true →
    ((t ∈ [Target.reg .outLen, .reg .errInfo, .reg .bitLen, .reg .capacity] ∨ ∃ n, t = .pb n ∨ t = .ob n) →
      s.readReply 4 addr = { resp := .okay, data := Config.freeWord s.draws }) ∧
    (¬ (t ∈ [Target.reg .outLen, .reg .errInfo, .reg .bitLen, .reg .capacity] ∨ ∃ n, t = .pb n ∨ t = .ob n) →
      t ≠ .reg .status → s.readReply 4 addr = ({ s with busy := false }).readReply 4 addr)

/-- From R72: a host read changes no state of the block: only the reply, the count of draws (log 3), and the host's own program
and turn. -/
def Obligations.HostReadChangesNothing : Prop :=
  ∀ (s : State) (addr : Word) (rest : List HostOp), s.HostNext (.read 4 addr) rest →
    step s = .next
      { s with
        schedule := s.schedule.tail, program := rest, reply := some (s.readReply 4 addr), draws := s.draws + 1 }

/-- R65: a word written to the PB window while BUSY = 0 lands in four bytes, the low byte at the lowest index, every
other byte being as before; reading the window gives the four bytes at the offset back, packed the same way. -/
def Obligations.PixelWindowIsLittleEndian : Prop :=
  ∀ (s : State) (o : Nat), s.build.Valid → s.MemoriesWf → s.busy = false → o % 4 = 0 → o < s.build.pbBytes →
    (∀ (data : Word) (rest : List HostOp),
      s.HostNext (.write 4 0xF#4 (BitVec.ofNat 32 (0x01000000 + o)) data) rest →
      ∃ pb : Memory 8,
        step s = .next
          { s with
            pb := pb, schedule := s.schedule.tail, program := rest, reply := some { resp := .okay, data := 0 } } ∧
        ∀ a, pb.read? a = if o ≤ a ∧ a < o + 4 then some (data.extractLsb' (8 * (a - o)) 8) else s.pb.read? a) ∧
    ∀ b0 b1 b2 b3 : Byte,
      s.pb.read? o = some b0 → s.pb.read? (o + 1) = some b1 → s.pb.read? (o + 2) = some b2 →
      s.pb.read? (o + 3) = some b3 →
      s.readReply 4 (BitVec.ofNat 32 (0x01000000 + o)) =
        { resp := .okay,
          data := BitVec.ofNat 32 (b0.toNat + 2 ^ 8 * b1.toNat + 2 ^ 16 * b2.toNat + 2 ^ 24 * b3.toNat) }

/-- From R66: a word written to the MB or KB window while BUSY = 0 stores its low 16 bits in one unit, every other unit being
as before; a write to the OB window is ignored, with an OKAY answer. -/
def Obligations.UnitWritesToTheTextWindows : Prop :=
  ∀ (s : State) (u : Nat) (data : Word) (rest : List HostOp), s.build.Valid → s.MemoriesWf →
    let t : State :=
      { s with schedule := s.schedule.tail, program := rest, reply := some { resp := .okay, data := 0 } }
    (s.busy = false → u < s.build.mbUnits → s.HostNext (.write 4 0xF#4 (BitVec.ofNat 32 (0x02000000 + 4 * u)) data) rest →
      ∃ mb : Memory 16, step s = .next { t with mb := mb } ∧
        (∀ a, mb.read? a = if a = u then some (data.setWidth 16) else s.mb.read? a) ∧
        ({ s with mb := mb }).readReply 4 (BitVec.ofNat 32 (0x02000000 + 4 * u)) =
          { resp := .okay, data := BitVec.ofNat 32 (data.toNat % 2 ^ 16) }) ∧
    (s.busy = false → u < s.build.kbUnits → s.HostNext (.write 4 0xF#4 (BitVec.ofNat 32 (0x03000000 + 4 * u)) data) rest →
      ∃ kb : Memory 16, step s = .next { t with kb := kb } ∧
        (∀ a, kb.read? a = if a = u then some (data.setWidth 16) else s.kb.read? a) ∧
        ({ s with kb := kb }).readReply 4 (BitVec.ofNat 32 (0x03000000 + 4 * u)) =
          { resp := .okay, data := BitVec.ofNat 32 (data.toNat % 2 ^ 16) }) ∧
    (u < s.build.obUnits → s.HostNext (.write 4 0xF#4 (BitVec.ofNat 32 (0x04000000 + 4 * u)) data) rest →
      step s = .next t)

/-- From R44: while BUSY = 0 an OB unit below OUT_LEN that holds a value reads as it, and a unit at or past OUT_LEN reads
as a draw (log 8) whatever OB holds there. -/
def Obligations.OutputReadsUpToItsLength : Prop :=
  ∀ (s : State) (u : Nat), s.build.Valid → s.busy = false → u < s.build.obUnits →
    (∀ v, u < s.outLen.toNat → s.ob.read? u = some v →
      s.readReply 4 (BitVec.ofNat 32 (0x04000000 + 4 * u)) = { resp := .okay, data := BitVec.ofNat 32 v.toNat }) ∧
    (s.outLen.toNat ≤ u →
      s.readReply 4 (BitVec.ofNat 32 (0x04000000 + 4 * u)) =
        { resp := .okay, data := BitVec.ofNat 32 ((Config.freeWord s.draws).toNat % 2 ^ 16) })

/-- From R65, R66 and R261: while BUSY = 0 a host read of the PB window answers in each byte lane the byte there, and a read
of the MB or KB window the unit there, zero-extended; where the element is unwritten the lane or the unit is a draw. That the
draws are those of log 3 and log 9, and that `written` is `reads as a value` (log 2), is the model's own. -/
def Obligations.UnwrittenElementsReadAsDraws : Prop :=
  ∀ s : State, s.build.Valid → s.busy = false →
    (∀ o, o % 4 = 0 → o < s.build.pbBytes →
      ∃ data, s.readReply 4 (BitVec.ofNat 32 (0x01000000 + o)) = { resp := .okay, data := data } ∧
        ∀ lane < 4, data.extractLsb' (8 * lane) 8 =
          match s.pb.read? (o + lane) with
          | some b => b
          | none => (Config.freeWord s.draws).extractLsb' (8 * lane) 8) ∧
    (∀ u < s.build.mbUnits,
      s.readReply 4 (BitVec.ofNat 32 (0x02000000 + 4 * u)) =
        { resp := .okay,
          data := BitVec.ofNat 32
            (match s.mb.read? u with
            | some c => c.toNat
            | none => (Config.freeWord s.draws).toNat % 2 ^ 16) }) ∧
    ∀ u < s.build.kbUnits,
      s.readReply 4 (BitVec.ofNat 32 (0x03000000 + 4 * u)) =
        { resp := .okay,
          data := BitVec.ofNat 32
            (match s.kb.read? u with
            | some c => c.toNat
            | none => (Config.freeWord s.draws).toNat % 2 ^ 16) }

/-! ### Round trips through the image -/

/-- From R182, R185 and R262: EMBED, then acceptance and EXTRACT, gives back a message of units up to 0xFF that fits, or
the part of it before its first 0xB6, whatever the image held before, every slot of it being written. -/
def Obligations.UnkeyedRoundTrip : Prop :=
  ∀ (s : State) (m : Text), s.build.Valid → s.MemoriesWf → s.HasImage → s.HasMessage m → (∀ c ∈ m, c.toNat ≤ 0xFF) →
    8 * (m.length + 1) ≤ 3 * s.width.toNat * s.height.toNat →
    s.SlotsWritten (3 * s.width.toNat * s.height.toNat) →
    ∃ t t' : State,
      exec .embed s = .next t ∧ exec .extract (t.accept (encode .extract)) = .next t' ∧
      t'.err = 0 ∧ t'.outLen.toNat = (m.takeWhile (· ≠ 0x00B6#16)).length ∧
      (∀ u < t'.outLen.toNat, t'.ob.read? u = m[u]?) ∧
      (¬ 0x00B6#16 ∈ m → t'.outLen.toNat = m.length)

/-- From R183 and R262: EMBED.K, then acceptance and EXTRACT.K with the same key, gives the message back, 0xB6 in it or not,
where every XOR result is a byte and the payload fits, every slot of the image being written, which R183 does not ask
but EXTRACT.K's reads need (R175, R262). -/
def Obligations.KeyedRoundTrip : Prop :=
  ∀ (s : State) (m k : Text) (hk : 0 < k.length), s.build.Valid → s.MemoriesWf → s.HasImage → s.HasMessage m →
    s.HasKey k →
    (∀ (i : Nat) (h : i < m.length), (m[i] ^^^ k[i % k.length]'(Nat.mod_lt i hk)).toNat ≤ 0xFF) →
    32 * ((m.length + 2) / 3) + 8 ≤ 3 * s.width.toNat * s.height.toNat →
    s.SlotsWritten (3 * s.width.toNat * s.height.toNat) →
    ∃ t t' : State,
      exec .embedK s = .next t ∧ exec .extractK (t.accept (encode .extractK)) = .next t' ∧
      t'.err = 0 ∧ t'.outLen.toNat = m.length ∧ ∀ u < m.length, t'.ob.read? u = m[u]?

/-- From R184 (a) and R262: EMBED.K, then acceptance and EXTRACT without the key, succeeds with the Base64 artifact, every
slot of the image being written, which EXTRACT's reads need (R175, R262). -/
def Obligations.UnkeyedExtractGivesArtifact : Prop :=
  ∀ (s : State) (m k p : Text), s.build.Valid → s.MemoriesWf → s.HasImage → s.HasMessage m → s.HasKey k →
    xorEncrypt m k = some p → 8 * (p.length + 1) ≤ 3 * s.width.toNat * s.height.toNat →
    s.SlotsWritten (3 * s.width.toNat * s.height.toNat) →
    ∃ t t' : State,
      exec .embedK s = .next t ∧ exec .extract (t.accept (encode .extract)) = .next t' ∧
      t'.err = 0 ∧ t'.outLen.toNat = p.length ∧ ∀ u < p.length, t'.ob.read? u = p[u]?
end

