-- ==== Sys2Proof/Laws/Codec.lean ====
section
/-! SUPPORT. Lemmas about the codec's building blocks: how many digits a code unit has, what a list of bits is worth, and
the two directions of the Base64 alphabet. -/

namespace Sys2Proof.Machine

/-! ### Digits -/

theorem digitCount_pos (fuel n : Nat) : 1 ≤ digitCount fuel n := by
  cases fuel with
  | zero => simp [digitCount]
  | succ fuel => simp only [digitCount]; split <;> omega

/-- The digits counted are enough for the number, when there is fuel for it. -/
theorem lt_two_pow_digitCount (fuel : Nat) : ∀ n, n < 2 ^ (fuel + 1) → n < 2 ^ digitCount fuel n := by
  induction fuel with
  | zero => intro n hn; simpa [digitCount] using hn
  | succ fuel ih =>
    intro n hn
    simp only [digitCount]
    split
    · omega
    · have := ih (n / 2) (by rw [Nat.pow_succ] at hn; omega)
      rw [Nat.pow_succ]; omega

/-- No fewer digits are enough: the first digit counted is a 1. -/
theorem two_pow_digitCount_le (fuel : Nat) : ∀ n, 1 ≤ n → 2 ^ (digitCount fuel n - 1) ≤ n := by
  induction fuel with
  | zero => intro n hn; simpa [digitCount] using hn
  | succ fuel ih =>
    intro n hn
    simp only [digitCount]
    split
    · simpa using hn
    · have h1 := ih (n / 2) (by omega)
      have h2 := digitCount_pos fuel (n / 2)
      obtain ⟨d, hd⟩ : ∃ d, digitCount fuel (n / 2) = d + 1 := ⟨digitCount fuel (n / 2) - 1, by omega⟩
      rw [hd] at h1 ⊢
      simp only [Nat.add_sub_cancel] at h1 ⊢
      rw [Nat.pow_succ]; omega

theorem bitlen_pos (v : CodeUnit) : 1 ≤ bitlen v := digitCount_pos 16 _

theorem lt_two_pow_bitlen (v : CodeUnit) : v.toNat < 2 ^ bitlen v :=
  lt_two_pow_digitCount 16 _ (by have := v.isLt; omega)

theorem two_pow_bitlen_le (v : CodeUnit) (h : 1 ≤ v.toNat) : 2 ^ (bitlen v - 1) ≤ v.toNat :=
  two_pow_digitCount_le 16 _ h

/-- A unit up to 0xFF has at most 8 digits. -/
theorem bitlen_le_eight (v : CodeUnit) (h : v.toNat ≤ 0xFF) : bitlen v ≤ 8 := by
  by_contra hc
  have h1 : 1 ≤ v.toNat := by
    by_contra h0
    have : v.toNat = 0 := by omega
    simp [bitlen, this, digitCount] at hc
  have h2 := two_pow_bitlen_le v h1
  have h3 : 2 ^ 8 ≤ 2 ^ (bitlen v - 1) := Nat.pow_le_pow_right (by omega) (by omega)
  omega

/-- A unit above 0xFF has more than 8 digits. -/
theorem eight_lt_bitlen (v : CodeUnit) (h : 0xFF < v.toNat) : 8 < bitlen v := by
  by_contra hc
  have h1 := lt_two_pow_bitlen v
  have h2 : 2 ^ bitlen v ≤ 2 ^ 8 := Nat.pow_le_pow_right (by omega) (by omega)
  omega

@[simp] theorem group_length (v : CodeUnit) : (group v).length = max 8 (bitlen v) := by simp [group]

theorem group_length_of_le (v : CodeUnit) (h : v.toNat ≤ 0xFF) : (group v).length = 8 := by
  have := bitlen_le_eight v h
  simp; omega

/-- Element k of a group is digit n-1-k of the unit, n being the group's length. -/
theorem group_getElem (v : CodeUnit) (k : Nat) (h : k < (group v).length) :
    (group v)[k] = v.getLsbD ((group v).length - 1 - k) := by
  rw [group_length]
  simp [group]

/-! ### What a list of bits is worth -/

theorem bitsValue_from (b : Bits) : ∀ acc,
    b.foldl (fun acc bit => 2 * acc + bit.toNat) acc = acc * 2 ^ b.length + bitsValue b := by
  induction b with
  | nil => intro acc; simp [bitsValue]
  | cons x b ih =>
    intro acc
    have h := ih x.toNat
    simp only [bitsValue, List.foldl_cons, List.length_cons, Nat.mul_zero, Nat.zero_add] at ih h ⊢
    rw [ih (2 * acc + x.toNat), h]
    ring

@[simp] theorem bitsValue_nil : bitsValue [] = 0 := rfl

theorem bitsValue_cons (x : Bool) (b : Bits) : bitsValue (x :: b) = x.toNat * 2 ^ b.length + bitsValue b := by
  have := bitsValue_from b x.toNat
  simpa [bitsValue] using this

theorem bitsValue_append (a b : Bits) : bitsValue (a ++ b) = bitsValue a * 2 ^ b.length + bitsValue b := by
  induction a with
  | nil => simp
  | cons x a ih => simp only [List.cons_append, bitsValue_cons, List.length_append, ih]; ring

theorem bitsValue_lt (b : Bits) : bitsValue b < 2 ^ b.length := by
  induction b with
  | nil => simp
  | cons x b ih =>
    rw [bitsValue_cons, List.length_cons, Nat.pow_succ]
    cases x <;> simp <;> omega

/-- Two bit strings of one length are equal when they are worth the same. -/
theorem bits_eq_of_value (a : Bits) : ∀ b : Bits, a.length = b.length → bitsValue a = bitsValue b → a = b := by
  induction a with
  | nil => intro b hl _; exact (List.length_eq_zero_iff.1 hl.symm).symm
  | cons x a ih =>
    intro b hl hv
    cases b with
    | nil => simp at hl
    | cons y b =>
      have hl' : a.length = b.length := by simpa using hl
      rw [bitsValue_cons, bitsValue_cons, hl'] at hv
      have h1 := bitsValue_lt a
      have h2 := bitsValue_lt b
      rw [hl'] at h1
      have hxy : x = y := by
        cases x <;> cases y <;> simp at hv ⊢ <;> omega
      subst hxy
      rw [ih b hl' (by omega)]

/-- The digits n-1 .. 0 of a number are worth the number modulo 2^n. -/
theorem bitsValue_digits {w : Nat} (v : BitVec w) (n : Nat) :
    bitsValue ((List.range n).map fun k => v.getLsbD (n - 1 - k)) = v.toNat % 2 ^ n := by
  induction n with
  | zero => simp [Nat.mod_one]
  | succ n ih =>
    have e : (List.range (n + 1)).map (fun k => v.getLsbD (n + 1 - 1 - k)) =
        v.getLsbD n :: (List.range n).map fun k => v.getLsbD (n - 1 - k) := by
      rw [List.range_succ_eq_map, List.map_cons, List.map_map]
      simp only [Nat.add_sub_cancel, Nat.sub_zero, List.cons.injEq, true_and]
      refine List.map_congr_left fun k _ => ?_
      simp only [Function.comp, Nat.succ_eq_add_one]
      congr 1; omega
    rw [e, bitsValue_cons, ih]
    simp only [List.length_map, List.length_range]
    rw [Nat.mod_pow_succ, BitVec.getLsbD]
    rw [Nat.testBit_eq_decide_div_mod_eq]
    have : v.toNat / 2 ^ n % 2 < 2 := Nat.mod_lt _ (by omega)
    by_cases h : v.toNat / 2 ^ n % 2 = 1
    · simp [h]; ring
    · have h0 : v.toNat / 2 ^ n % 2 = 0 := by omega
      simp [h0]

/-! ### Windows -/

/-- Eight bits in front of a bit string are one code unit in front of its text. -/
theorem b2t_append (a b : Bits) (h : a.length = 8) : b2t (a ++ b) = BitVec.ofNat 16 (bitsValue a) :: b2t b := by
  match a, h with
  | [b0, b1, b2, b3, b4, b5, b6, b7], _ => rfl

theorem b2t_short (b : Bits) (h : b.length < 8) : b2t b = [] := by
  match b, h with
  | [], _ | [_], _ | [_, _], _ | [_, _, _], _ | [_, _, _, _], _ | [_, _, _, _, _], _ | [_, _, _, _, _, _], _
  | [_, _, _, _, _, _, _], _ => rfl

/-- Induction on a bit string by windows of 8. -/
theorem window_induction {P : Bits → Prop} (short : ∀ b, b.length < 8 → P b)
    (window : ∀ a b, a.length = 8 → P b → P (a ++ b)) (b : Bits) : P b := by
  induction hn : b.length using Nat.strong_induction_on generalizing b with
  | _ n ih =>
    by_cases h : b.length < 8
    · exact short b h
    · rw [← List.take_append_drop 8 b]
      exact window _ _ (by simp; omega) (ih (b.drop 8).length (by simp; omega) _ rfl)

@[simp] theorem t2b_nil : t2b [] = [] := rfl

theorem t2b_cons (c : CodeUnit) (t : Text) : t2b (c :: t) = group c ++ t2b t := by simp [t2b]

theorem t2b_append (t u : Text) : t2b (t ++ u) = t2b t ++ t2b u := by simp [t2b]

/-! ### The Base64 alphabet -/

/-- Each of the 64 values has a character that stands for it. -/
theorem b64Val_b64Char (v : BitVec 6) : b64Val (b64Char v) = some v := by
  have h : ∀ n < 64, b64Val (b64Char (BitVec.ofNat 6 n)) = some (BitVec.ofNat 6 n) := by decide
  simpa using h v.toNat v.isLt

/-- The characters lie in 0x2B..0x7A and none is the pad. -/
theorem b64Char_range (v : BitVec 6) :
    0x2B ≤ (b64Char v).toNat ∧ (b64Char v).toNat ≤ 0x7A ∧ b64Char v ≠ padChar := by
  have h : ∀ n < 64, 0x2B ≤ (b64Char (BitVec.ofNat 6 n)).toNat ∧ (b64Char (BitVec.ofNat 6 n)).toNat ≤ 0x7A ∧
      b64Char (BitVec.ofNat 6 n) ≠ padChar := by decide
  simpa using h v.toNat v.isLt

/-- A unit of the alphabet is the character of its value. -/
theorem b64Char_of_b64Val (c : CodeUnit) (v : BitVec 6) (h : b64Val c = some v) : b64Char v = c := by
  have hall : ∀ n < 0x7B, ∀ u < 64, b64Val (BitVec.ofNat 16 n) = some (BitVec.ofNat 6 u) →
      b64Char (BitVec.ofNat 6 u) = BitVec.ofNat 16 n := by decide +kernel
  have hn : c.toNat < 0x7B := by
    by_contra hn
    unfold b64Val at h
    simp only at h
    repeat' split at h
    all_goals first | omega | simp at h
  simpa using hall c.toNat hn v.toNat v.isLt (by simpa using h)

theorem b64Val_padChar : b64Val padChar = none := rfl

end Sys2Proof.Machine
end

