-- ==== Sys2Proof/Laws/Memory.lean ====
section
/-! SUPPORT. The laws of the block memories: read after write, the canonical form every operation keeps, and what a
checked read of many elements answers. -/

namespace Sys2Proof.Machine

variable {w : Nat}

/-! ### One element -/

@[simp] theorem Memory.read?_nil (a : Nat) : Memory.read? ([] : Memory w) a = none := rfl

theorem Memory.read?_cons (k : Nat) (v : BitVec w) (m : Memory w) (a : Nat) :
    Memory.read? ((k, v) :: m) a = if k = a then some v else m.read? a := rfl

/-- A read after a write gives the value written there, and what it gave before everywhere else. This needs the rising
order: a write stops at the first index that is not below its own. -/
theorem Memory.read?_write (m : Memory w) (hm : (m.map Prod.fst).Pairwise (· < ·)) (a : Nat) (v : BitVec w) (b : Nat) :
    (m.write a v).read? b = if b = a then some v else m.read? b := by
  induction m with
  | nil => simp [Memory.write, Memory.read?_cons, eq_comm]
  | cons c m ih =>
    obtain ⟨k, x⟩ := c
    have hrest := ih (List.pairwise_cons.1 hm).2
    simp only [Memory.write]
    split
    · grind [Memory.read?]
    · split <;> grind [Memory.read?]

/-- Reading an element of index below every listed one finds nothing. -/
theorem Memory.read?_none_of_lt (m : Memory w) (a : Nat) (h : ∀ c ∈ m, a < c.1) : m.read? a = none := by
  induction m with
  | nil => rfl
  | cons c m ih => grind [Memory.read?]

/-- An element is listed exactly when it reads as a value. -/
theorem Memory.read?_isSome_iff (m : Memory w) (a : Nat) : (m.read? a).isSome ↔ ∃ v, (a, v) ∈ m := by
  induction m with
  | nil => simp
  | cons c m ih => grind [Memory.read?]

/-- An element that reads as no value after a write read as none before it. -/
theorem Memory.read?_eq_none_of_write (m : Memory w) (a : Nat) (v : BitVec w) (b : Nat)
    (h : (m.write a v).read? b = none) : m.read? b = none := by
  induction m with
  | nil => rfl
  | cons c m ih =>
    simp only [Memory.write] at h
    split at h
    · grind [Memory.read?]
    · split at h <;> grind [Memory.read?]

/-! ### The canonical form -/

/-- The indices listed after a write: those listed before, and the one written. -/
theorem Memory.mem_write (m : Memory w) (a : Nat) (v : BitVec w) (c : Nat × BitVec w) (hc : c ∈ m.write a v) :
    c = (a, v) ∨ c ∈ m := by
  induction m with
  | nil => simpa [Memory.write] using hc
  | cons d m ih =>
    simp only [Memory.write] at hc
    split at hc
    · simpa using hc
    · split at hc <;> grind

/-- A write keeps the indices strictly rising. -/
theorem Memory.write_rising (m : Memory w) (hp : (m.map Prod.fst).Pairwise (· < ·)) (a : Nat) (v : BitVec w) :
    ((m.write a v).map Prod.fst).Pairwise (· < ·) := by
  induction m with
  | nil => simp [Memory.write]
  | cons d m ih =>
    have ⟨hd, hm'⟩ := List.pairwise_cons.1 hp
    simp only [Memory.write]
    split
    · refine List.pairwise_cons.2 ⟨?_, hp⟩
      intro b hb
      grind
    · split
      · refine List.pairwise_cons.2 ⟨?_, hm'⟩
        intro b hb
        grind
      · refine List.pairwise_cons.2 ⟨?_, ih hm'⟩
        intro b hb
        obtain ⟨c, hc, rfl⟩ := List.mem_map.1 hb
        rcases Memory.mem_write m a v c hc with rfl | hc'
        · grind
        · exact hd _ (List.mem_map_of_mem hc')

/-- A write inside the memory keeps the canonical form. -/
theorem Memory.write_wf (size : Nat) (m : Memory w) (hm : m.wf size) (a : Nat) (ha : a < size) (v : BitVec w) :
    (m.write a v).wf size := by
  refine ⟨Memory.write_rising m hm.1 a v, fun c hc => ?_⟩
  rcases Memory.mem_write m a v c hc with rfl | hc'
  · exact ha
  · exact hm.2 c hc'

@[simp] theorem Memory.nil_wf (size : Nat) : Memory.wf size ([] : Memory w) := by
  simp [Memory.wf]

theorem Memory.writeFrom_wf (size : Nat) (vs : List (BitVec w)) :
    ∀ (m : Memory w) (u : Nat), m.wf size → u + vs.length ≤ size → (m.writeFrom u vs).wf size := by
  induction vs with
  | nil => intro m u hm _; exact hm
  | cons v vs ih =>
    intro m u hm hu
    simp only [List.length_cons] at hu
    exact ih _ _ (Memory.write_wf size m hm u (by omega) v) (by omega)

/-- Reading after a run of writes: the values written lie at their indices, everything else is as before. -/
theorem Memory.read?_writeFrom (vs : List (BitVec w)) :
    ∀ (m : Memory w) (u : Nat), (m.map Prod.fst).Pairwise (· < ·) → ∀ b,
      (m.writeFrom u vs).read? b = if u ≤ b ∧ b < u + vs.length then vs[b - u]? else m.read? b := by
  induction vs with
  | nil => intro m u _ b; simp [Memory.writeFrom]
  | cons v vs ih =>
    intro m u hm b
    simp only [List.length_cons]
    rw [Memory.writeFrom, ih _ _ (Memory.write_rising m hm u v), Memory.read?_write m hm]
    by_cases hb : b = u
    · subst hb; simp
    · by_cases h1 : u ≤ b
      · obtain ⟨d, rfl⟩ : ∃ d, b = u + (d + 1) := ⟨b - u - 1, by omega⟩
        have : u + (d + 1) - u = d + 1 := by omega
        have : u + (d + 1) - (u + 1) = d := by omega
        simp_all
        grind
      · have : ¬ u + 1 ≤ b := by omega
        simp [h1, this, hb]

/-! ### Checked reads -/

theorem memRead_eq_ok (which : BlockMem) (m : Memory w) (a : Nat) (v : BitVec w) :
    memRead which m a = .ok v ↔ m.read? a = some v := by
  unfold memRead
  split <;> simp_all

theorem memRead_eq_error (which : BlockMem) (m : Memory w) (a : Nat) (f : Fault) :
    memRead which m a = .error f ↔ m.read? a = none ∧ f = .uninitRead which a := by
  unfold memRead
  cases m.read? a <;> simp [eq_comm]

/-- What a checked read of many elements answers: the value of each, when each has one. -/
theorem memReadAll_eq_ok (which : BlockMem) (m : Memory w) (idx : List Nat) (vs : List (BitVec w)) :
    memReadAll which m idx = .ok vs ↔ idx.map m.read? = vs.map some := by
  induction idx generalizing vs with
  | nil => cases vs <;> simp [memReadAll]
  | cons a idx ih =>
    simp only [memReadAll]
    cases h : memRead which m a with
    | error f =>
      rw [memRead_eq_error] at h
      cases vs <;> simp [h.1]
    | ok v =>
      rw [memRead_eq_ok] at h
      cases h2 : memReadAll which m idx with
      | error f =>
        cases vs with
        | nil => simp
        | cons x xs =>
          have := (ih xs).not.1 (by simp [h2])
          simp_all
      | ok us =>
        cases vs with
        | nil => simp
        | cons x xs =>
          have := ih xs
          simp_all

/-- A checked read of many elements stops exactly when one of them is unwritten, and names such an element. -/
theorem memReadAll_error (which : BlockMem) (m : Memory w) (idx : List Nat) (f : Fault)
    (h : memReadAll which m idx = .error f) :
    ∃ a ∈ idx, m.read? a = none ∧ f = .uninitRead which a := by
  induction idx with
  | nil => simp [memReadAll] at h
  | cons a idx ih =>
    simp only [memReadAll] at h
    cases h1 : memRead which m a with
    | error g =>
      simp only [h1] at h
      cases h
      exact ⟨a, by simp, (memRead_eq_error ..).1 h1⟩
    | ok v =>
      simp only [h1] at h
      cases h2 : memReadAll which m idx with
      | error g =>
        simp only [h2] at h
        cases h
        obtain ⟨b, hb, hb'⟩ := ih h2
        exact ⟨b, by simp [hb], hb'⟩
      | ok us => simp [h2] at h

/-- A checked read answers values exactly when every element has one. -/
theorem memReadAll_ok_iff (which : BlockMem) (m : Memory w) (idx : List Nat) :
    (∃ vs, memReadAll which m idx = .ok vs) ↔ ∀ a ∈ idx, (m.read? a).isSome := by
  constructor
  · rintro ⟨vs, h⟩ a ha
    rw [memReadAll_eq_ok] at h
    have : m.read? a ∈ vs.map some := h ▸ List.mem_map_of_mem ha
    grind
  · intro h
    cases h1 : memReadAll which m idx with
    | ok vs => exact ⟨vs, rfl⟩
    | error f =>
      obtain ⟨a, ha, hn, -⟩ := memReadAll_error which m idx f h1
      exact absurd (h a ha) (by simp [hn])

end Sys2Proof.Machine
end

