-- ==== Sys2Proof/Laws/State.lean ====
section
/-! SUPPORT. What each update of the state does to each field, one lemma per field per update, so that no proof unfolds a
record update. -/

namespace Sys2Proof.Machine

/-! ### State.withCapacity -/

@[simp] theorem State.withCapacity_build (s : State) : (s.withCapacity).build = s.build := rfl
@[simp] theorem State.withCapacity_cmdLatch (s : State) : (s.withCapacity).cmdLatch = s.cmdLatch := rfl
@[simp] theorem State.withCapacity_busy (s : State) : (s.withCapacity).busy = s.busy := rfl
@[simp] theorem State.withCapacity_done (s : State) : (s.withCapacity).done = s.done := rfl
@[simp] theorem State.withCapacity_hzd (s : State) : (s.withCapacity).hzd = s.hzd := rfl
@[simp] theorem State.withCapacity_err (s : State) : (s.withCapacity).err = s.err := rfl
@[simp] theorem State.withCapacity_ie (s : State) : (s.withCapacity).ie = s.ie := rfl
@[simp] theorem State.withCapacity_width (s : State) : (s.withCapacity).width = s.width := rfl
@[simp] theorem State.withCapacity_height (s : State) : (s.withCapacity).height = s.height := rfl
@[simp] theorem State.withCapacity_msgLen (s : State) : (s.withCapacity).msgLen = s.msgLen := rfl
@[simp] theorem State.withCapacity_keyLen (s : State) : (s.withCapacity).keyLen = s.keyLen := rfl
@[simp] theorem State.withCapacity_outLen (s : State) : (s.withCapacity).outLen = s.outLen := rfl
@[simp] theorem State.withCapacity_errInfo (s : State) : (s.withCapacity).errInfo = s.errInfo := rfl
@[simp] theorem State.withCapacity_bitLen (s : State) : (s.withCapacity).bitLen = s.bitLen := rfl
@[simp] theorem State.withCapacity_capacity (s : State) : (s.withCapacity).capacity = BitVec.ofNat 32 s.capacityBits := rfl
@[simp] theorem State.withCapacity_pb (s : State) : (s.withCapacity).pb = s.pb := rfl
@[simp] theorem State.withCapacity_mb (s : State) : (s.withCapacity).mb = s.mb := rfl
@[simp] theorem State.withCapacity_kb (s : State) : (s.withCapacity).kb = s.kb := rfl
@[simp] theorem State.withCapacity_ob (s : State) : (s.withCapacity).ob = s.ob := rfl
@[simp] theorem State.withCapacity_hostHazard (s : State) : (s.withCapacity).hostHazard = s.hostHazard := rfl
@[simp] theorem State.withCapacity_program (s : State) : (s.withCapacity).program = s.program := rfl
@[simp] theorem State.withCapacity_schedule (s : State) : (s.withCapacity).schedule = s.schedule := rfl
@[simp] theorem State.withCapacity_reply (s : State) : (s.withCapacity).reply = s.reply := rfl
@[simp] theorem State.withCapacity_draws (s : State) : (s.withCapacity).draws = s.draws := rfl

/-! ### State.accept -/

@[simp] theorem State.accept_build (s : State) (w : Word) : (s.accept w).build = s.build := rfl
@[simp] theorem State.accept_cmdLatch (s : State) (w : Word) : (s.accept w).cmdLatch = w := rfl
@[simp] theorem State.accept_busy (s : State) (w : Word) : (s.accept w).busy = true := rfl
@[simp] theorem State.accept_done (s : State) (w : Word) : (s.accept w).done = false := rfl
@[simp] theorem State.accept_hzd (s : State) (w : Word) : (s.accept w).hzd = s.hzd := rfl
@[simp] theorem State.accept_err (s : State) (w : Word) : (s.accept w).err = ErrCode.none.code := rfl
@[simp] theorem State.accept_ie (s : State) (w : Word) : (s.accept w).ie = s.ie := rfl
@[simp] theorem State.accept_width (s : State) (w : Word) : (s.accept w).width = s.width := rfl
@[simp] theorem State.accept_height (s : State) (w : Word) : (s.accept w).height = s.height := rfl
@[simp] theorem State.accept_msgLen (s : State) (w : Word) : (s.accept w).msgLen = s.msgLen := rfl
@[simp] theorem State.accept_keyLen (s : State) (w : Word) : (s.accept w).keyLen = s.keyLen := rfl
@[simp] theorem State.accept_outLen (s : State) (w : Word) : (s.accept w).outLen = 0 := rfl
@[simp] theorem State.accept_errInfo (s : State) (w : Word) : (s.accept w).errInfo = 0 := rfl
@[simp] theorem State.accept_bitLen (s : State) (w : Word) : (s.accept w).bitLen = 0 := rfl
@[simp] theorem State.accept_capacity (s : State) (w : Word) : (s.accept w).capacity = 0 := rfl
@[simp] theorem State.accept_pb (s : State) (w : Word) : (s.accept w).pb = s.pb := rfl
@[simp] theorem State.accept_mb (s : State) (w : Word) : (s.accept w).mb = s.mb := rfl
@[simp] theorem State.accept_kb (s : State) (w : Word) : (s.accept w).kb = s.kb := rfl
@[simp] theorem State.accept_ob (s : State) (w : Word) : (s.accept w).ob = s.ob := rfl
@[simp] theorem State.accept_hostHazard (s : State) (w : Word) : (s.accept w).hostHazard = s.hostHazard := rfl
@[simp] theorem State.accept_program (s : State) (w : Word) : (s.accept w).program = s.program := rfl
@[simp] theorem State.accept_schedule (s : State) (w : Word) : (s.accept w).schedule = s.schedule := rfl
@[simp] theorem State.accept_reply (s : State) (w : Word) : (s.accept w).reply = s.reply := rfl
@[simp] theorem State.accept_draws (s : State) (w : Word) : (s.accept w).draws = s.draws := rfl

/-! ### State.writeStatus -/

@[simp] theorem State.writeStatus_build (s : State) (d : Word) : (s.writeStatus d).build = s.build := rfl
@[simp] theorem State.writeStatus_cmdLatch (s : State) (d : Word) : (s.writeStatus d).cmdLatch = s.cmdLatch := rfl
@[simp] theorem State.writeStatus_busy (s : State) (d : Word) : (s.writeStatus d).busy = s.busy := rfl
@[simp] theorem State.writeStatus_done (s : State) (d : Word) : (s.writeStatus d).done = (s.done && !d.getLsbD 1) := rfl
@[simp] theorem State.writeStatus_hzd (s : State) (d : Word) : (s.writeStatus d).hzd = (s.hzd && !d.getLsbD 2) := rfl
@[simp] theorem State.writeStatus_err (s : State) (d : Word) : (s.writeStatus d).err = s.err := rfl
@[simp] theorem State.writeStatus_ie (s : State) (d : Word) : (s.writeStatus d).ie = s.ie := rfl
@[simp] theorem State.writeStatus_width (s : State) (d : Word) : (s.writeStatus d).width = s.width := rfl
@[simp] theorem State.writeStatus_height (s : State) (d : Word) : (s.writeStatus d).height = s.height := rfl
@[simp] theorem State.writeStatus_msgLen (s : State) (d : Word) : (s.writeStatus d).msgLen = s.msgLen := rfl
@[simp] theorem State.writeStatus_keyLen (s : State) (d : Word) : (s.writeStatus d).keyLen = s.keyLen := rfl
@[simp] theorem State.writeStatus_outLen (s : State) (d : Word) : (s.writeStatus d).outLen = s.outLen := rfl
@[simp] theorem State.writeStatus_errInfo (s : State) (d : Word) : (s.writeStatus d).errInfo = s.errInfo := rfl
@[simp] theorem State.writeStatus_bitLen (s : State) (d : Word) : (s.writeStatus d).bitLen = s.bitLen := rfl
@[simp] theorem State.writeStatus_capacity (s : State) (d : Word) : (s.writeStatus d).capacity = s.capacity := rfl
@[simp] theorem State.writeStatus_pb (s : State) (d : Word) : (s.writeStatus d).pb = s.pb := rfl
@[simp] theorem State.writeStatus_mb (s : State) (d : Word) : (s.writeStatus d).mb = s.mb := rfl
@[simp] theorem State.writeStatus_kb (s : State) (d : Word) : (s.writeStatus d).kb = s.kb := rfl
@[simp] theorem State.writeStatus_ob (s : State) (d : Word) : (s.writeStatus d).ob = s.ob := rfl
@[simp] theorem State.writeStatus_hostHazard (s : State) (d : Word) : (s.writeStatus d).hostHazard = s.hostHazard := rfl
@[simp] theorem State.writeStatus_program (s : State) (d : Word) : (s.writeStatus d).program = s.program := rfl
@[simp] theorem State.writeStatus_schedule (s : State) (d : Word) : (s.writeStatus d).schedule = s.schedule := rfl
@[simp] theorem State.writeStatus_reply (s : State) (d : Word) : (s.writeStatus d).reply = s.reply := rfl
@[simp] theorem State.writeStatus_draws (s : State) (d : Word) : (s.writeStatus d).draws = s.draws := rfl

/-! ### State.resetRegisters -/

@[simp] theorem State.resetRegisters_build (s : State) : (s.resetRegisters).build = s.build := rfl
@[simp] theorem State.resetRegisters_cmdLatch (s : State) : (s.resetRegisters).cmdLatch = 0 := rfl
@[simp] theorem State.resetRegisters_busy (s : State) : (s.resetRegisters).busy = false := rfl
@[simp] theorem State.resetRegisters_done (s : State) : (s.resetRegisters).done = false := rfl
@[simp] theorem State.resetRegisters_hzd (s : State) : (s.resetRegisters).hzd = false := rfl
@[simp] theorem State.resetRegisters_err (s : State) : (s.resetRegisters).err = ErrCode.none.code := rfl
@[simp] theorem State.resetRegisters_ie (s : State) : (s.resetRegisters).ie = false := rfl
@[simp] theorem State.resetRegisters_width (s : State) : (s.resetRegisters).width = 0 := rfl
@[simp] theorem State.resetRegisters_height (s : State) : (s.resetRegisters).height = 0 := rfl
@[simp] theorem State.resetRegisters_msgLen (s : State) : (s.resetRegisters).msgLen = 0 := rfl
@[simp] theorem State.resetRegisters_keyLen (s : State) : (s.resetRegisters).keyLen = 0 := rfl
@[simp] theorem State.resetRegisters_outLen (s : State) : (s.resetRegisters).outLen = 0 := rfl
@[simp] theorem State.resetRegisters_errInfo (s : State) : (s.resetRegisters).errInfo = 0 := rfl
@[simp] theorem State.resetRegisters_bitLen (s : State) : (s.resetRegisters).bitLen = 0 := rfl
@[simp] theorem State.resetRegisters_capacity (s : State) : (s.resetRegisters).capacity = 0 := rfl
@[simp] theorem State.resetRegisters_pb (s : State) : (s.resetRegisters).pb = s.pb := rfl
@[simp] theorem State.resetRegisters_mb (s : State) : (s.resetRegisters).mb = s.mb := rfl
@[simp] theorem State.resetRegisters_kb (s : State) : (s.resetRegisters).kb = s.kb := rfl
@[simp] theorem State.resetRegisters_ob (s : State) : (s.resetRegisters).ob = s.ob := rfl
@[simp] theorem State.resetRegisters_hostHazard (s : State) : (s.resetRegisters).hostHazard = s.hostHazard := rfl
@[simp] theorem State.resetRegisters_program (s : State) : (s.resetRegisters).program = s.program := rfl
@[simp] theorem State.resetRegisters_schedule (s : State) : (s.resetRegisters).schedule = s.schedule := rfl
@[simp] theorem State.resetRegisters_reply (s : State) : (s.resetRegisters).reply = s.reply := rfl
@[simp] theorem State.resetRegisters_draws (s : State) : (s.resetRegisters).draws = s.draws := rfl

/-! ### State.hardwareReset -/

@[simp] theorem State.hardwareReset_build (s : State) : (s.hardwareReset).build = s.build := rfl
@[simp] theorem State.hardwareReset_cmdLatch (s : State) : (s.hardwareReset).cmdLatch = 0 := rfl
@[simp] theorem State.hardwareReset_busy (s : State) : (s.hardwareReset).busy = false := rfl
@[simp] theorem State.hardwareReset_done (s : State) : (s.hardwareReset).done = false := rfl
@[simp] theorem State.hardwareReset_hzd (s : State) : (s.hardwareReset).hzd = false := rfl
@[simp] theorem State.hardwareReset_err (s : State) : (s.hardwareReset).err = ErrCode.none.code := rfl
@[simp] theorem State.hardwareReset_ie (s : State) : (s.hardwareReset).ie = false := rfl
@[simp] theorem State.hardwareReset_width (s : State) : (s.hardwareReset).width = 0 := rfl
@[simp] theorem State.hardwareReset_height (s : State) : (s.hardwareReset).height = 0 := rfl
@[simp] theorem State.hardwareReset_msgLen (s : State) : (s.hardwareReset).msgLen = 0 := rfl
@[simp] theorem State.hardwareReset_keyLen (s : State) : (s.hardwareReset).keyLen = 0 := rfl
@[simp] theorem State.hardwareReset_outLen (s : State) : (s.hardwareReset).outLen = 0 := rfl
@[simp] theorem State.hardwareReset_errInfo (s : State) : (s.hardwareReset).errInfo = 0 := rfl
@[simp] theorem State.hardwareReset_bitLen (s : State) : (s.hardwareReset).bitLen = 0 := rfl
@[simp] theorem State.hardwareReset_capacity (s : State) : (s.hardwareReset).capacity = 0 := rfl
@[simp] theorem State.hardwareReset_pb (s : State) : (s.hardwareReset).pb = [] := rfl
@[simp] theorem State.hardwareReset_mb (s : State) : (s.hardwareReset).mb = [] := rfl
@[simp] theorem State.hardwareReset_kb (s : State) : (s.hardwareReset).kb = [] := rfl
@[simp] theorem State.hardwareReset_ob (s : State) : (s.hardwareReset).ob = [] := rfl
@[simp] theorem State.hardwareReset_hostHazard (s : State) : (s.hardwareReset).hostHazard = s.hostHazard := rfl
@[simp] theorem State.hardwareReset_program (s : State) : (s.hardwareReset).program = s.program := rfl
@[simp] theorem State.hardwareReset_schedule (s : State) : (s.hardwareReset).schedule = s.schedule := rfl
@[simp] theorem State.hardwareReset_reply (s : State) : (s.hardwareReset).reply = s.reply := rfl
@[simp] theorem State.hardwareReset_draws (s : State) : (s.hardwareReset).draws = s.draws := rfl

/-! ### State.answer -/

@[simp] theorem State.answer_build (s : State) (r : BusResp) (d : Word) : (s.answer r d).build = s.build := rfl
@[simp] theorem State.answer_cmdLatch (s : State) (r : BusResp) (d : Word) : (s.answer r d).cmdLatch = s.cmdLatch := rfl
@[simp] theorem State.answer_busy (s : State) (r : BusResp) (d : Word) : (s.answer r d).busy = s.busy := rfl
@[simp] theorem State.answer_done (s : State) (r : BusResp) (d : Word) : (s.answer r d).done = s.done := rfl
@[simp] theorem State.answer_hzd (s : State) (r : BusResp) (d : Word) : (s.answer r d).hzd = s.hzd := rfl
@[simp] theorem State.answer_err (s : State) (r : BusResp) (d : Word) : (s.answer r d).err = s.err := rfl
@[simp] theorem State.answer_ie (s : State) (r : BusResp) (d : Word) : (s.answer r d).ie = s.ie := rfl
@[simp] theorem State.answer_width (s : State) (r : BusResp) (d : Word) : (s.answer r d).width = s.width := rfl
@[simp] theorem State.answer_height (s : State) (r : BusResp) (d : Word) : (s.answer r d).height = s.height := rfl
@[simp] theorem State.answer_msgLen (s : State) (r : BusResp) (d : Word) : (s.answer r d).msgLen = s.msgLen := rfl
@[simp] theorem State.answer_keyLen (s : State) (r : BusResp) (d : Word) : (s.answer r d).keyLen = s.keyLen := rfl
@[simp] theorem State.answer_outLen (s : State) (r : BusResp) (d : Word) : (s.answer r d).outLen = s.outLen := rfl
@[simp] theorem State.answer_errInfo (s : State) (r : BusResp) (d : Word) : (s.answer r d).errInfo = s.errInfo := rfl
@[simp] theorem State.answer_bitLen (s : State) (r : BusResp) (d : Word) : (s.answer r d).bitLen = s.bitLen := rfl
@[simp] theorem State.answer_capacity (s : State) (r : BusResp) (d : Word) : (s.answer r d).capacity = s.capacity := rfl
@[simp] theorem State.answer_pb (s : State) (r : BusResp) (d : Word) : (s.answer r d).pb = s.pb := rfl
@[simp] theorem State.answer_mb (s : State) (r : BusResp) (d : Word) : (s.answer r d).mb = s.mb := rfl
@[simp] theorem State.answer_kb (s : State) (r : BusResp) (d : Word) : (s.answer r d).kb = s.kb := rfl
@[simp] theorem State.answer_ob (s : State) (r : BusResp) (d : Word) : (s.answer r d).ob = s.ob := rfl
@[simp] theorem State.answer_hostHazard (s : State) (r : BusResp) (d : Word) : (s.answer r d).hostHazard = s.hostHazard := rfl
@[simp] theorem State.answer_program (s : State) (r : BusResp) (d : Word) : (s.answer r d).program = s.program := rfl
@[simp] theorem State.answer_schedule (s : State) (r : BusResp) (d : Word) : (s.answer r d).schedule = s.schedule := rfl
@[simp] theorem State.answer_reply (s : State) (r : BusResp) (d : Word) : (s.answer r d).reply = some { resp := r, data := d } := rfl
@[simp] theorem State.answer_draws (s : State) (r : BusResp) (d : Word) : (s.answer r d).draws = s.draws := rfl

/-! ### State.busRead -/

@[simp] theorem State.busRead_build (s : State) (n : Nat) (a : Word) : (s.busRead n a).build = s.build := rfl
@[simp] theorem State.busRead_cmdLatch (s : State) (n : Nat) (a : Word) : (s.busRead n a).cmdLatch = s.cmdLatch := rfl
@[simp] theorem State.busRead_busy (s : State) (n : Nat) (a : Word) : (s.busRead n a).busy = s.busy := rfl
@[simp] theorem State.busRead_done (s : State) (n : Nat) (a : Word) : (s.busRead n a).done = s.done := rfl
@[simp] theorem State.busRead_hzd (s : State) (n : Nat) (a : Word) : (s.busRead n a).hzd = s.hzd := rfl
@[simp] theorem State.busRead_err (s : State) (n : Nat) (a : Word) : (s.busRead n a).err = s.err := rfl
@[simp] theorem State.busRead_ie (s : State) (n : Nat) (a : Word) : (s.busRead n a).ie = s.ie := rfl
@[simp] theorem State.busRead_width (s : State) (n : Nat) (a : Word) : (s.busRead n a).width = s.width := rfl
@[simp] theorem State.busRead_height (s : State) (n : Nat) (a : Word) : (s.busRead n a).height = s.height := rfl
@[simp] theorem State.busRead_msgLen (s : State) (n : Nat) (a : Word) : (s.busRead n a).msgLen = s.msgLen := rfl
@[simp] theorem State.busRead_keyLen (s : State) (n : Nat) (a : Word) : (s.busRead n a).keyLen = s.keyLen := rfl
@[simp] theorem State.busRead_outLen (s : State) (n : Nat) (a : Word) : (s.busRead n a).outLen = s.outLen := rfl
@[simp] theorem State.busRead_errInfo (s : State) (n : Nat) (a : Word) : (s.busRead n a).errInfo = s.errInfo := rfl
@[simp] theorem State.busRead_bitLen (s : State) (n : Nat) (a : Word) : (s.busRead n a).bitLen = s.bitLen := rfl
@[simp] theorem State.busRead_capacity (s : State) (n : Nat) (a : Word) : (s.busRead n a).capacity = s.capacity := rfl
@[simp] theorem State.busRead_pb (s : State) (n : Nat) (a : Word) : (s.busRead n a).pb = s.pb := rfl
@[simp] theorem State.busRead_mb (s : State) (n : Nat) (a : Word) : (s.busRead n a).mb = s.mb := rfl
@[simp] theorem State.busRead_kb (s : State) (n : Nat) (a : Word) : (s.busRead n a).kb = s.kb := rfl
@[simp] theorem State.busRead_ob (s : State) (n : Nat) (a : Word) : (s.busRead n a).ob = s.ob := rfl
@[simp] theorem State.busRead_hostHazard (s : State) (n : Nat) (a : Word) : (s.busRead n a).hostHazard = s.hostHazard := rfl
@[simp] theorem State.busRead_program (s : State) (n : Nat) (a : Word) : (s.busRead n a).program = s.program := rfl
@[simp] theorem State.busRead_schedule (s : State) (n : Nat) (a : Word) : (s.busRead n a).schedule = s.schedule := rfl
@[simp] theorem State.busRead_reply (s : State) (n : Nat) (a : Word) : (s.busRead n a).reply = some (s.readReply n a) := rfl
@[simp] theorem State.busRead_draws (s : State) (n : Nat) (a : Word) : (s.busRead n a).draws = s.draws + 1 := rfl

/-! ### State.dropWrite -/

@[simp] theorem State.dropWrite_build (s : State) : (s.dropWrite).build = s.build := rfl
@[simp] theorem State.dropWrite_cmdLatch (s : State) : (s.dropWrite).cmdLatch = s.cmdLatch := rfl
@[simp] theorem State.dropWrite_busy (s : State) : (s.dropWrite).busy = s.busy := rfl
@[simp] theorem State.dropWrite_done (s : State) : (s.dropWrite).done = s.done := rfl
@[simp] theorem State.dropWrite_hzd (s : State) : (s.dropWrite).hzd = true := rfl
@[simp] theorem State.dropWrite_err (s : State) : (s.dropWrite).err = s.err := rfl
@[simp] theorem State.dropWrite_ie (s : State) : (s.dropWrite).ie = s.ie := rfl
@[simp] theorem State.dropWrite_width (s : State) : (s.dropWrite).width = s.width := rfl
@[simp] theorem State.dropWrite_height (s : State) : (s.dropWrite).height = s.height := rfl
@[simp] theorem State.dropWrite_msgLen (s : State) : (s.dropWrite).msgLen = s.msgLen := rfl
@[simp] theorem State.dropWrite_keyLen (s : State) : (s.dropWrite).keyLen = s.keyLen := rfl
@[simp] theorem State.dropWrite_outLen (s : State) : (s.dropWrite).outLen = s.outLen := rfl
@[simp] theorem State.dropWrite_errInfo (s : State) : (s.dropWrite).errInfo = s.errInfo := rfl
@[simp] theorem State.dropWrite_bitLen (s : State) : (s.dropWrite).bitLen = s.bitLen := rfl
@[simp] theorem State.dropWrite_capacity (s : State) : (s.dropWrite).capacity = s.capacity := rfl
@[simp] theorem State.dropWrite_pb (s : State) : (s.dropWrite).pb = s.pb := rfl
@[simp] theorem State.dropWrite_mb (s : State) : (s.dropWrite).mb = s.mb := rfl
@[simp] theorem State.dropWrite_kb (s : State) : (s.dropWrite).kb = s.kb := rfl
@[simp] theorem State.dropWrite_ob (s : State) : (s.dropWrite).ob = s.ob := rfl
@[simp] theorem State.dropWrite_hostHazard (s : State) : (s.dropWrite).hostHazard = true := rfl
@[simp] theorem State.dropWrite_program (s : State) : (s.dropWrite).program = s.program := rfl
@[simp] theorem State.dropWrite_schedule (s : State) : (s.dropWrite).schedule = s.schedule := rfl
@[simp] theorem State.dropWrite_reply (s : State) : (s.dropWrite).reply = s.reply := rfl
@[simp] theorem State.dropWrite_draws (s : State) : (s.dropWrite).draws = s.draws := rfl

end Sys2Proof.Machine
end

