-- ==== Sys2Proof/Laws/Commands.lean ====
section
/-! SUPPORT. What each shared operation of the commands can do, said once: the ends of a command, validation, the checked
reads, the write loop of EMBED, and what any command of the engine answers. -/

namespace Sys2Proof.Machine

/-! ### Ends of a command -/

@[simp] theorem orFault_ok {α : Type} (v : α) (k : α → Result) : orFault (.ok v) k = k v := rfl

@[simp] theorem orFault_error {α : Type} (f : Fault) (k : α → Result) : orFault (.error f) k = .fault f := rfl

/-- A command that may stop on a read answers a next state only by going on with the value read. -/
theorem orFault_eq_next {α : Type} (r : Except Fault α) (k : α → Result) (t : State) :
    orFault r k = .next t ↔ ∃ v, r = .ok v ∧ k v = .next t := by
  cases r <;> simp

theorem State.raise_eq (s : State) (code : ErrCode) (info : Word) :
    s.raise code info = .next { s with err := code.code, errInfo := info, busy := false, done := true } := rfl

theorem State.returnOk_eq (s : State) :
    s.returnOk = .next { s with err := ErrCode.none.code, busy := false, done := true } := rfl

/-- Validation raises with the first failing check, or goes on when none fails. -/
theorem State.validated_cases (s : State) (checks : List Check) (body : Result) :
    (∃ c ∈ checks, c.fails s = true ∧ s.validated checks body = s.raise .validation c.info) ∨
    ((∀ c ∈ checks, c.fails s = false) ∧ s.validated checks body = body) := by
  unfold State.validated
  cases h : checks.find? (·.fails s) with
  | some c => exact .inl ⟨c, List.mem_of_find?_eq_some h, by simpa using List.find?_some h, rfl⟩
  | none => exact .inr ⟨by simpa using List.find?_eq_none.1 h, rfl⟩

/-- When every check passes, validation goes on. -/
theorem State.validated_pass (s : State) (checks : List Check) (body : Result)
    (h : ∀ c ∈ checks, c.fails s = false) : s.validated checks body = body := by
  unfold State.validated
  rw [List.find?_eq_none.2 (by simpa using h)]

/-! ### Reads of a command -/

/-- Text(MB, L) is the L units from index 0 on, when they are all written. -/
theorem State.messageText_eq_ok (s : State) (m : Text) :
    s.messageText = .ok m ↔ (List.range s.msgLen.toNat).map s.mb.read? = m.map some :=
  memReadAll_eq_ok ..

/-- Text(KB, KL) is the KL units from index 0 on, when they are all written. -/
theorem State.keyText_eq_ok (s : State) (k : Text) :
    s.keyText = .ok k ↔ (List.range s.keyLen.toNat).map s.kb.read? = k.map some :=
  memReadAll_eq_ok ..

/-- A text read has as many units as were asked for. -/
theorem memReadAll_length {w : Nat} (which : BlockMem) (m : Memory w) (idx : List Nat) (vs : List (BitVec w))
    (h : memReadAll which m idx = .ok vs) : vs.length = idx.length := by
  rw [memReadAll_eq_ok] at h
  simpa using (congrArg List.length h).symm

/-- GatherLSBs answers bit 0 of every slot of the image, when they are all written. -/
theorem gatherLsbs_eq_ok (pb : Memory 8) (c : Nat) (bits : Bits) :
    gatherLsbs pb c = .ok bits ↔
      ∃ bytes : List Byte, (List.range c).map (fun j => pb.read? (slot j)) = bytes.map some ∧
        bits = bytes.map (·.getLsbD 0) := by
  unfold gatherLsbs
  cases h : memReadAll .pb pb ((List.range c).map slot) with
  | error f =>
    constructor
    · intro h'; simp [Except.map] at h'
    · rintro ⟨bytes, hb, -⟩
      have := (memReadAll_eq_ok .pb pb ((List.range c).map slot) bytes).2 (by simpa [Function.comp_def] using hb)
      simp [h] at this
  | ok bytes =>
    have hb := (memReadAll_eq_ok ..).1 h
    simp only [Except.map, Except.ok.injEq]
    constructor
    · rintro rfl
      exact ⟨bytes, by simpa [Function.comp_def] using hb, rfl⟩
    · rintro ⟨bytes', hb', rfl⟩
      have : bytes.map some = bytes'.map some := by
        rw [← hb, ← hb']; simp [Function.comp_def]
      rw [List.map_injective_iff.2 (Option.some_injective _) this]

/-- GatherLSBs stops exactly at an unwritten slot of the image, and names it. -/
theorem gatherLsbs_error (pb : Memory 8) (c : Nat) (f : Fault) (h : gatherLsbs pb c = .error f) :
    ∃ j < c, pb.read? (slot j) = none ∧ f = .uninitRead .pb (slot j) := by
  unfold gatherLsbs at h
  cases h2 : memReadAll .pb pb ((List.range c).map slot) with
  | ok v => simp [h2, Except.map] at h
  | error g =>
    simp only [h2, Except.map, Except.error.injEq] at h
    subst h
    obtain ⟨a, ha, h1, h3⟩ := memReadAll_error _ _ _ _ h2
    obtain ⟨j, hj, rfl⟩ := List.mem_map.1 ha
    exact ⟨j, List.mem_range.1 hj, h1, h3⟩

/-! ### Slots -/

/-- Different payload bits go to different bytes. -/
theorem slot_injective (j k : Nat) (h : slot j = slot k) : j = k := by
  unfold slot at h; omega

/-- Slots rise with the payload index. -/
theorem slot_lt_slot (j k : Nat) : slot j < slot k ↔ j < k := by
  unfold slot; omega

/-- A slot is never an alpha channel. -/
theorem slot_not_alpha (j : Nat) : ¬ isAlpha (slot j) := by
  unfold isAlpha slot; omega

/-- The slots of an image lie inside it. -/
theorem slot_lt_image (j pixels : Nat) (h : j < 3 * pixels) : slot j < 4 * pixels := by
  unfold slot; omega

/-- Every index that is no alpha channel is a slot. -/
theorem exists_slot (i : Nat) (h : ¬ isAlpha i) : ∃ j, slot j = i := by
  refine ⟨3 * (i / 4) + i % 4, ?_⟩
  unfold isAlpha at h; unfold slot; omega

/-! ### The write loop of EMBED -/

/-- What the write loop answers: it goes through when every slot it uses is written, and each such slot then holds its old
byte with the payload bit in it, every other byte being as before. -/
theorem embedLoop_ok (bits : Bits) : ∀ (pb : Memory 8) (j : Nat) (pb' : Memory 8),
    (pb.map Prod.fst).Pairwise (· < ·) → embedLoop pb j bits = .ok pb' →
    (pb'.map Prod.fst).Pairwise (· < ·) ∧
    (∀ n (hn : n < bits.length), ∃ old, pb.read? (slot (j + n)) = some old ∧
      pb'.read? (slot (j + n)) = some (lsbWrite old bits[n])) ∧
    ∀ i, (∀ n < bits.length, i ≠ slot (j + n)) → pb'.read? i = pb.read? i := by
  induction bits with
  | nil =>
    intro pb j pb' hp h
    simp only [embedLoop, Except.ok.injEq] at h
    subst h
    simp [hp]
  | cons bit bits ih =>
    intro pb j pb' hp h
    simp only [embedLoop] at h
    cases hr : memRead .pb pb (slot j) with
    | error f => simp [hr] at h
    | ok old =>
      simp only [hr] at h
      rw [memRead_eq_ok] at hr
      obtain ⟨h1, h2, h3⟩ := ih _ _ _ (Memory.write_rising pb hp _ _) h
      refine ⟨h1, ?_, ?_⟩
      · intro n hn
        cases n with
        | zero =>
          refine ⟨old, hr, ?_⟩
          have h0 := h3 (slot j) (fun n _ hc => by have := slot_injective _ _ hc; omega)
          rw [Memory.read?_write pb hp] at h0
          simpa using h0
        | succ n =>
          obtain ⟨o, ho, ho'⟩ := h2 n (by simpa using hn)
          have hne : slot (j + 1 + n) ≠ slot j := fun hc => by have := slot_injective _ _ hc; omega
          rw [Memory.read?_write pb hp, if_neg hne] at ho
          have e : j + (n + 1) = j + 1 + n := by omega
          rw [e]
          exact ⟨o, ho, by simpa using ho'⟩
      · intro i hi
        rw [h3 i (fun n hn => ?_), Memory.read?_write pb hp, if_neg]
        · have := hi 0 (by simp)
          simpa using this
        · have := hi (n + 1) (by simpa using hn)
          have e : j + (n + 1) = j + 1 + n := by omega
          rwa [e] at this

/-- The write loop goes through when every slot it uses is written. -/
theorem embedLoop_exists (bits : Bits) : ∀ (pb : Memory 8) (j : Nat),
    (pb.map Prod.fst).Pairwise (· < ·) → (∀ n < bits.length, (pb.read? (slot (j + n))).isSome) →
    ∃ pb', embedLoop pb j bits = .ok pb' := by
  induction bits with
  | nil => intro pb j _ _; exact ⟨pb, rfl⟩
  | cons bit bits ih =>
    intro pb j hp h
    obtain ⟨old, ho⟩ := Option.isSome_iff_exists.1 (h 0 (by simp))
    simp only [Nat.add_zero] at ho
    simp only [embedLoop, (memRead_eq_ok ..).2 ho]
    refine ih _ _ (Memory.write_rising pb hp _ _) fun n hn => ?_
    have e : j + 1 + n = j + (n + 1) := by omega
    rw [Memory.read?_write pb hp, e]
    split
    · rfl
    · exact h (n + 1) (by simpa using hn)

/-- The write loop keeps the canonical form, since every byte it writes was listed. -/
theorem embedLoop_wf (size : Nat) (bits : Bits) : ∀ (pb : Memory 8) (j : Nat) (pb' : Memory 8),
    pb.wf size → embedLoop pb j bits = .ok pb' → pb'.wf size := by
  induction bits with
  | nil => intro pb j pb' hp h; simp only [embedLoop, Except.ok.injEq] at h; exact h ▸ hp
  | cons bit bits ih =>
    intro pb j pb' hp h
    simp only [embedLoop] at h
    cases hr : memRead .pb pb (slot j) with
    | error f => simp [hr] at h
    | ok old =>
      simp only [hr] at h
      rw [memRead_eq_ok] at hr
      obtain ⟨v, hv⟩ := (Memory.read?_isSome_iff pb (slot j)).1 (by simp [hr])
      exact ih _ _ _ (Memory.write_wf size pb hp _ (hp.2 _ hv) _) h

/-- The write loop stops exactly at a slot that was unwritten before it began, and names it. -/
theorem embedLoop_error (bits : Bits) : ∀ (pb : Memory 8) (j : Nat) (f : Fault), embedLoop pb j bits = .error f →
    ∃ n < bits.length, f = .uninitRead .pb (slot (j + n)) ∧ pb.read? (slot (j + n)) = none := by
  induction bits with
  | nil => intro pb j f h; simp [embedLoop] at h
  | cons bit bits ih =>
    intro pb j f h
    simp only [embedLoop] at h
    cases hr : memRead .pb pb (slot j) with
    | error g =>
      simp only [hr, Except.error.injEq] at h
      subst h
      rw [memRead_eq_error] at hr
      exact ⟨0, by simp, by simpa using hr.2, by simpa using hr.1⟩
    | ok old =>
      simp only [hr] at h
      obtain ⟨n, hn, h1, h2⟩ := ih _ _ _ h
      have e : j + (n + 1) = j + 1 + n := by omega
      exact ⟨n + 1, by simpa using hn, by rw [h1, e], by rw [e]; exact Memory.read?_eq_none_of_write _ _ _ _ h2⟩

/-! ### What a command answers -/

/-- A payload is embedded, does not fit, or meets an unwritten byte. -/
theorem embedPayload_cases (p : Text) (s : State) :
    (s.capacityBits < (embedBits p).length ∧
      embedPayload p s = State.raise .capacity 0 { s with bitLen := BitVec.ofNat 32 (embedBits p).length }) ∨
    (∃ pb, (embedBits p).length ≤ s.capacityBits ∧ embedLoop s.pb 0 (embedBits p) = .ok pb ∧
      embedPayload p s =
        State.returnOk { s with bitLen := BitVec.ofNat 32 (embedBits p).length, pb := pb }) ∨
    ∃ f, embedLoop s.pb 0 (embedBits p) = .error f ∧ embedPayload p s = .fault f := by
  unfold embedPayload
  by_cases h : s.capacityBits < (embedBits p).length
  · exact .inl ⟨h, by simp [h]⟩
  · cases h2 : embedLoop s.pb 0 (embedBits p) with
    | ok pb => exact .inr (.inl ⟨pb, by omega, rfl, by simp [h, h2]⟩)
    | error f => exact .inr (.inr ⟨f, rfl, by simp [h, h2]⟩)

/-- The end of a command of the engine, as a fact about the outcome: a model fault; an error, which writes only ERR,
ERR_INFO, CAPACITY, BITLEN, BUSY and DONE; or a success, which may write PB, OB and OUT_LEN besides. -/
abbrev CommandOutcome (s : State) (r : Result) : Prop :=
  (∃ f, r = .fault f) ∨
  (∃ (code : ErrCode) (info cap bl : Word),
    code ∈ [ErrCode.validation, ErrCode.capacity, ErrCode.notFound, ErrCode.decode] ∧
    r = .next { s with err := code.code, errInfo := info, capacity := cap, bitLen := bl, busy := false, done := true }) ∨
  ∃ (cap bl : Word) (pb : Memory 8) (ob : Memory 16) (len : BitVec 24),
    r = .next { s with err := ErrCode.none.code, capacity := cap, bitLen := bl, pb := pb, ob := ob, outLen := len,
                       busy := false, done := true }

theorem CommandOutcome.validated (s : State) (checks : List Check) (body : Result) (h : CommandOutcome s body) :
    CommandOutcome s (s.validated checks body) := by
  rcases s.validated_cases checks body with ⟨c, -, -, hc⟩ | ⟨-, hc⟩ <;> rw [hc]
  · exact .inr (.inl ⟨.validation, c.info, s.capacity, s.bitLen, by simp, rfl⟩)
  · exact h

theorem CommandOutcome.orFault {α : Type} (s : State) (r : Except Fault α) (k : α → Result)
    (h : ∀ v, CommandOutcome s (k v)) : CommandOutcome s (orFault r k) := by
  cases r with
  | error f => exact .inl ⟨f, rfl⟩
  | ok v => exact h v

theorem CommandOutcome.embedPayload (s : State) (p : Text) :
    CommandOutcome s (embedPayload p s.withCapacity) := by
  rcases embedPayload_cases p s.withCapacity with ⟨-, h⟩ | ⟨pb, -, -, h⟩ | ⟨f, -, h⟩ <;> rw [h]
  · exact .inr (.inl ⟨.capacity, _, _, _, by simp, rfl⟩)
  · exact .inr (.inr ⟨_, _, pb, s.ob, s.outLen, rfl⟩)
  · exact .inl ⟨f, rfl⟩

theorem CommandOutcome.emit (s : State) (t : Text) : CommandOutcome s (s.emit t) :=
  .inr (.inr ⟨s.capacity, s.bitLen, s.pb, _, _, rfl⟩)

theorem CommandOutcome.emitWithCapacity (s : State) (t : Text) : CommandOutcome s (s.withCapacity.emit t) :=
  .inr (.inr ⟨_, s.bitLen, s.pb, _, _, rfl⟩)

/-- What any command of the engine answers. -/
theorem exec_outcome (i : Instr) (hi : i ≠ .softReset) (s : State) : CommandOutcome s (exec i s) := by
  cases i with
  | softReset => exact absurd rfl hi
  | nop => exact .inr (.inr ⟨s.capacity, s.bitLen, s.pb, s.ob, s.outLen, rfl⟩)
  | embed =>
    exact .validated _ _ _ (.orFault _ _ _ fun m => .embedPayload s m)
  | embedK =>
    refine .validated _ _ _ (.orFault _ _ _ fun m => .orFault _ _ _ fun k => ?_)
    cases xorEncrypt m k with
    | some p => exact .embedPayload s p
    | none => exact .inr (.inl ⟨.decode, _, _, s.bitLen, by simp, rfl⟩)
  | extract =>
    refine .validated _ _ _ (.orFault _ _ _ fun bits => ?_)
    cases findPayload bits with
    | some r => exact .emitWithCapacity s r
    | none => exact .inr (.inl ⟨.notFound, _, _, s.bitLen, by simp, rfl⟩)
  | extractK =>
    refine .validated _ _ _ (.orFault _ _ _ fun bits => ?_)
    cases findPayload bits with
    | none => exact .inr (.inl ⟨.notFound, _, _, s.bitLen, by simp, rfl⟩)
    | some r =>
      refine .orFault _ _ _ fun k => ?_
      cases xorDecrypt r k with
      | some m => exact .emitWithCapacity s m
      | none => exact .inr (.inl ⟨.decode, _, _, s.bitLen, by simp, rfl⟩)
  | xorEncK =>
    refine .validated _ _ _ (.orFault _ _ _ fun m => .orFault _ _ _ fun k => ?_)
    cases xorEncrypt m k with
    | some a => exact .emit s a
    | none => exact .inr (.inl ⟨.decode, _, s.capacity, s.bitLen, by simp, rfl⟩)
  | xorDecK =>
    refine .validated _ _ _ (.orFault _ _ _ fun a => .orFault _ _ _ fun k => ?_)
    cases xorDecrypt a k with
    | some m => exact .emit s m
    | none => exact .inr (.inl ⟨.decode, _, s.capacity, s.bitLen, by simp, rfl⟩)

end Sys2Proof.Machine
end

