-- ==== Sys2Proof/Laws/Conditions.lean ====
section
/-! SUPPORT. What each checked read of a command answers, in the terms the statements use: the conditions of Safety on a state,
and which elements are written. -/

namespace Sys2Proof.Machine

/-- A command that may stop on a read faults by that read, or by what follows it. -/
theorem orFault_faults_iff {α : Type} (r : Except Fault α) (k : α → Result) :
    (∃ f, orFault r k = .fault f) ↔ (¬ ∃ v, r = .ok v) ∨ ∃ v, r = .ok v ∧ ∃ f, k v = .fault f := by
  cases r <;> simp

/-! ### The message and the key -/

/-- The values that a checked read of the first `n` elements answers, element by element. -/
theorem memReadAll_range_eq_ok {w : Nat} (which : BlockMem) (m : Memory w) (n : Nat) (vs : List (BitVec w)) :
    memReadAll which m (List.range n) = .ok vs ↔
      vs.length = n ∧ ∀ (u : Nat) (h : u < vs.length), m.read? u = some vs[u] := by
  rw [memReadAll_eq_ok]
  constructor
  · intro h
    have hl : vs.length = n := by simpa using (congrArg List.length h).symm
    refine ⟨hl, fun u hu => ?_⟩
    have := congrArg (·[u]?) h
    simpa [hu, ← hl] using this
  · rintro ⟨rfl, h⟩
    exact List.ext_getElem (by simp) fun u hu hu' => by simpa using h u (by simpa using hu')

/-- Where V3 and V4 pass, the message read is the text that HasMessage names. -/
theorem State.messageText_iff_hasMessage (s : State) (m : Text) (h3 : s.msgLen ≠ 0)
    (h4 : s.msgLen.toNat ≤ s.build.mbUnits) : s.messageText = .ok m ↔ s.HasMessage m := by
  unfold State.messageText
  rw [memReadAll_range_eq_ok]
  exact ⟨fun h => ⟨h3, h4, h⟩, fun h => h.2.2⟩

/-- Where V5 and V6 pass, the key read is the text that HasKey names. -/
theorem State.keyText_iff_hasKey (s : State) (k : Text) (h5 : s.keyLen ≠ 0)
    (h6 : s.keyLen.toNat ≤ s.build.kbUnits) : s.keyText = .ok k ↔ s.HasKey k := by
  unfold State.keyText
  rw [memReadAll_range_eq_ok]
  exact ⟨fun h => ⟨h5, h6, h⟩, fun h => h.2.2⟩

theorem State.messageText_ok_iff (s : State) : (∃ m, s.messageText = .ok m) ↔ s.MessageWritten := by
  unfold State.messageText
  rw [memReadAll_ok_iff]
  simp

theorem State.keyText_ok_iff (s : State) : (∃ k, s.keyText = .ok k) ↔ s.KeyWritten := by
  unfold State.keyText
  rw [memReadAll_ok_iff]
  simp

/-! ### The image's low bits -/

/-- GatherLSBs answers the bits that HasLsbs names. -/
theorem gatherLsbs_iff_hasLsbs (s : State) (bits : Bits) :
    gatherLsbs s.pb s.capacityBits = .ok bits ↔ s.HasLsbs bits := by
  rw [gatherLsbs_eq_ok]
  constructor
  · rintro ⟨bytes, h1, rfl⟩
    have hl : bytes.length = s.capacityBits := by simpa using (congrArg List.length h1).symm
    refine ⟨by rw [List.length_map, hl]; rfl, fun j hj => ?_⟩
    have hj' : j < bytes.length := by simpa using hj
    have := congrArg (·[j]?) h1
    have h2 : s.pb.read? (slot j) = some bytes[j] := by simpa [hj', ← hl] using this
    simp [h2]
  · rintro ⟨h1, h2⟩
    have h3 : ∀ j < s.capacityBits, ∃ b, s.pb.read? (slot j) = some b := by
      intro j hj
      have := h2 j (by rw [h1]; exact hj)
      cases hr : s.pb.read? (slot j) with
      | none => simp [hr] at this
      | some b => exact ⟨b, rfl⟩
    refine ⟨(List.range s.capacityBits).map fun j => (s.pb.read? (slot j)).getD 0, ?_, ?_⟩
    · refine List.ext_getElem (by simp) fun j hj _ => ?_
      obtain ⟨b, hb⟩ := h3 j (by simpa using hj)
      simp [hb]
    · refine List.ext_getElem (by simp [h1, State.capacityBits]) fun j hj hj' => ?_
      obtain ⟨b, hb⟩ := h3 j (by simpa using hj')
      have := h2 j hj
      rw [hb] at this
      simpa [hb, eq_comm] using this

theorem gatherLsbs_ok_iff (s : State) :
    (∃ bits, gatherLsbs s.pb s.capacityBits = .ok bits) ↔ s.SlotsWritten (3 * s.width.toNat * s.height.toNat) := by
  constructor
  · rintro ⟨bits, h⟩ j hj
    obtain ⟨bytes, h1, -⟩ := (gatherLsbs_eq_ok ..).1 h
    have hj' : j < s.capacityBits := hj
    have h4 : s.pb.read? (slot j) ∈ bytes.map some := by
      rw [← h1]; exact List.mem_map.2 ⟨j, by simpa using hj', rfl⟩
    obtain ⟨v, -, hv⟩ := List.mem_map.1 h4
    simp [← hv]
  · intro h
    cases hg : gatherLsbs s.pb s.capacityBits with
    | ok bits => exact ⟨bits, rfl⟩
    | error f =>
      obtain ⟨j, hj, h1, -⟩ := gatherLsbs_error _ _ _ hg
      exact absurd (h j hj) (by simp [h1])

/-! ### The payload -/

/-- The part EMBED and EMBED.K share faults exactly on a payload that fits and has an unwritten slot. -/
theorem embedPayload_faults_iff (p : Text) (s : State) (hp : (s.pb.map Prod.fst).Pairwise (· < ·)) :
    (∃ f, embedPayload p s = .fault f) ↔
      (embedBits p).length ≤ s.capacityBits ∧ ¬ s.SlotsWritten (embedBits p).length := by
  rcases embedPayload_cases p s with ⟨h1, h⟩ | ⟨pb, h1, h2, h⟩ | ⟨f, h2, h⟩
  · rw [h]
    exact iff_of_false (by rintro ⟨f, hf⟩; cases hf) fun hc => by omega
  · rw [h]
    refine iff_of_false (by rintro ⟨f, hf⟩; cases hf) fun hc => hc.2 fun j hj => ?_
    obtain ⟨old, ho, -⟩ := (embedLoop_ok _ _ _ _ hp h2).2.1 j hj
    rw [Nat.zero_add] at ho
    simp [ho]
  · refine iff_of_true ⟨f, h⟩ ⟨?_, fun hs => ?_⟩
    · by_contra hc
      have hc' : s.capacityBits < (embedBits p).length := by omega
      simp only [embedPayload, hc', if_true, State.raise_eq] at h
      cases h
    · obtain ⟨n, hn, -, h3⟩ := embedLoop_error _ _ _ _ h2
      rw [Nat.zero_add] at h3
      exact absurd (hs n hn) (by simp [h3])

end Sys2Proof.Machine
end

