-- ==== Sys2Proof/Laws/PerInstr.lean ====
section
/-! SUPPORT. The per-instruction family of LAWS.json: the encoding of each command. -/

namespace Sys2Proof.Laws.Encoding

/-- An instruction is well formed, and its word holds its OP and K columns of R92 and nothing in RSV. -/
def Statement (i : Instr) : Prop := i.WellFormed ∧ commandFields (encode i) = i.fields

theorem nop : Statement .nop := by unfold Statement; decide
theorem embed : Statement .embed := by unfold Statement; decide
theorem embedK : Statement .embedK := by unfold Statement; decide
theorem extract : Statement .extract := by unfold Statement; decide
theorem extractK : Statement .extractK := by unfold Statement; decide
theorem xorEncK : Statement .xorEncK := by unfold Statement; decide
theorem xorDecK : Statement .xorDecK := by unfold Statement; decide
theorem softReset : Statement .softReset := by unfold Statement; decide

end Sys2Proof.Laws.Encoding
end

