-- ==== Sys2Proof/Laws/Step.lean ====
section
/-! SUPPORT. One step by whose turn it is, running the machine one step further, and where a bus access leads. -/

namespace Sys2Proof.Machine

/-! ### One step -/

theorem step_of_engine (s : State) (h : s.turn = .engine) :
    step s = State.engineTurn { s with schedule := s.schedule.tail } := by
  unfold step; rw [h]

theorem step_of_host (s : State) (h : s.turn = .host) :
    step s = State.hostTurn { s with schedule := s.schedule.tail } := by
  unfold step; rw [h]

theorem step_of_rst (s : State) (h : s.turn = .rst) :
    step s = .next (State.hardwareReset { s with schedule := s.schedule.tail }) := by
  unfold step; rw [h]

/-! ### Runs -/

theorem core_run_next (M : Host.Core) (s t : M.State) (h : M.step s = .next t) (k : Nat) :
    M.run (k + 1) s = M.run k t := by
  simp only [Host.Core.run, h]

theorem core_run_fault (M : Host.Core) (s : M.State) (f : M.Fault) (h : M.step s = .fault f) (k : Nat) :
    M.run (k + 1) s = .fault f := by
  simp only [Host.Core.run, h]

/-! ### Bus accesses -/

/-- A mapped target comes from a full-width, aligned access. -/
theorem busTarget_eq_some (b : Build) (size : Nat) (addr : Word) (t : Target) :
    busTarget b size addr = some t ↔ (size = 4 ∧ addr.toNat % 4 = 0) ∧ decodeAddr b addr = some t := by
  unfold busTarget
  split <;> simp_all

theorem regAt_lt (a : Nat) (h : (regAt a).isSome) : a < 0x1000 := by
  unfold regAt at h
  split at h <;> simp_all

/-- A register's offset leads to the register, whatever the build. -/
theorem decodeAddr_of_regAt (b : Build) (addr : Word) (r : Reg) (h : regAt addr.toNat = some r) :
    decodeAddr b addr = some (.reg r) := by
  have := regAt_lt addr.toNat (by simp [h])
  simp [decodeAddr, h, this]

/-- A text window's index is inside its memory, and a PB offset inside PB. -/
theorem decodeAddr_bounds (b : Build) (addr : Word) (t : Target) (h : decodeAddr b addr = some t) :
    match t with
    | .reg r => regAt addr.toNat = some r
    | .pb o => o < b.pbBytes ∧ addr.toNat = 0x01000000 + o
    | .mb u => u < b.mbUnits
    | .kb u => u < b.kbUnits
    | .ob u => u < b.obUnits := by
  unfold decodeAddr at h
  simp only at h
  split at h
  · obtain ⟨r, hr, rfl⟩ := Option.map_eq_some_iff.1 h
    exact hr
  · repeat' split at h
    all_goals first | (cases h; simp only; omega) | simp at h

/-! ### STATUS -/

/-- STATUS as a sum of its fields. -/
theorem State.statusWord_eq (s : State) :
    s.statusWord = BitVec.ofNat 32 (s.busy.toNat + 2 * s.done.toNat + 4 * s.hzd.toNat + 16 * s.err.toNat) := by
  have h : ∀ (e : BitVec 4) (a b c : Bool),
      ((0 : BitVec 24) ++ (e ++ (BitVec.ofBool false ++ (BitVec.ofBool a ++ (BitVec.ofBool b ++ BitVec.ofBool c)))) : Word)
        = BitVec.ofNat 32 (c.toNat + 2 * b.toNat + 4 * a.toNat + 16 * e.toNat) := by decide
  exact h s.err s.hzd s.done s.busy

/-- What a WAIT looks at: bit 0 of STATUS is BUSY. -/
theorem State.statusWord_busy (s : State) : s.statusWord &&& 0x1#32 = 0x0#32 ↔ s.busy = false := by
  have h : ∀ (e : BitVec 4) (a b c : Bool),
      (((0 : BitVec 24) ++ (e ++ (BitVec.ofBool false ++ (BitVec.ofBool a ++ (BitVec.ofBool b ++ BitVec.ofBool c)))) : Word)
        &&& 0x1#32 = 0x0#32) ↔ c = false := by decide
  exact h s.err s.hzd s.done s.busy

end Sys2Proof.Machine
end

