-- ==== Sys2Proof/Tests/Slice0.lean ====
section
/-! SUPPORT. Tests of the model, their expected values taken from the examples of spec/ (the rule is named at each), and for
every statement with hypotheses a concrete state that meets them. -/

namespace Sys2Proof.Tests

open Sys2Proof.Machine

/-! ### Helpers -/

/-- A build that meets R12 with little memory: a 4 by 4 image, four message units, two key units, eight output units. -/
def tiny : Build := { pbBytes := 64, mbUnits := 4, kbUnits := 2, obUnits := 8 }

/-- A 4 by 4 image whose slots have the given low bits, then zeros. -/
def carrier (bits : Bits) : Memory 8 :=
  (List.range 64).map fun i =>
    (i, if (i + 1) % 4 = 0 then 0xFF#8 else if bits.getD (3 * (i / 4) + i % 4) false then 0xA1#8 else 0xA0#8)

/-- A block with a 4 by 4 carrier, the message "Hi" and the key "k". -/
def base : State :=
  { State.powerOn tiny with
    width := 4, height := 4, msgLen := 2, keyLen := 1,
    pb := carrier [], mb := [(0, 0x48), (1, 0x69)], kb := [(0, 0x6B)] }

/-- `base` with a command in flight and one turn of the host before the engine's. -/
def inFlight (w : Word) : State := { base.accept w with schedule := [.host] }

/-- `base` with one host operation to do. -/
def asked (op : HostOp) : State := { base with program := [op] }

/-- `inFlight` with one host operation to do. -/
def askedBusy (op : HostOp) : State := { inFlight 0x1 with program := [op] }

/-- The next state of an outcome. -/
def after : Result → Option State
  | .next s => some s
  | .fault _ => none
  | .refused _ => none

/-- STATUS.ERR, ERR_INFO, OUT_LEN, BITLEN and CAPACITY after an outcome. -/
def results (r : Result) : Option (Nat × Nat × Nat × Nat × Nat) :=
  (after r).map fun s => (s.err.toNat, s.errInfo.toNat, s.outLen.toNat, s.bitLen.toNat, s.capacity.toNat)

/-- OB up to OUT_LEN after an outcome. -/
def output (r : Result) : Option (List (Option CodeUnit)) :=
  (after r).map fun s => (List.range s.outLen.toNat).map s.ob.read?

/-! ### Well-formedness: an ill-formed term for each check -/

theorem test_wellFormed_all : ∀ i ∈ [Instr.nop, .embed, .embedK, .extract, .extractK, .xorEncK, .xorDecK, .softReset],
    i.WellFormed := by decide
theorem test_illFormed_reservedBits : (CommandFields.mk 1 false 0x0).problem = some .reservedBits := by decide
theorem test_illFormed_unassignedOp_low : (CommandFields.mk 0 false 0x5).problem = some .unassignedOp := by decide
theorem test_illFormed_unassignedOp_high : (CommandFields.mk 0 true 0xE).problem = some .unassignedOp := by decide
theorem test_illFormed_keyOnControl : (CommandFields.mk 0 true 0xF).problem = some .keyOnControl := by decide
theorem test_illFormed_keyMissing : (CommandFields.mk 0 false 0x3).problem = some .keyMissing := by decide
theorem test_build_reference : Build.reference.Valid := by decide
theorem test_build_pb_multiple : ¬ Build.Valid { tiny with pbBytes := 62 } := by decide
theorem test_build_pb_range : ¬ Build.Valid { tiny with pbBytes := 0 } ∧ ¬ Build.Valid { tiny with pbBytes := 16777220 } := by
  decide
theorem test_build_mb_range : ¬ Build.Valid { tiny with mbUnits := 0 } ∧ ¬ Build.Valid { tiny with mbUnits := 4194305 } := by
  decide
theorem test_build_kb_range : ¬ Build.Valid { tiny with kbUnits := 0 } ∧ ¬ Build.Valid { tiny with kbUnits := 4194305 } := by
  decide
theorem test_build_ob_range :
    ¬ Build.Valid { tiny with obUnits := 7 } ∧ ¬ Build.Valid { tiny with obUnits := 4194305 } ∧
    ¬ Build.Valid { tiny with pbBytes := 96 } := by decide

/-! ### Decoding: words written out from R91 and R92 (RSV, then K, then OP) -/

theorem test_decode_nop : (decode 0b000000000000000000000000000_0_0000#32).toOption = some .nop := by decide
theorem test_decode_embed : (decode 0b000000000000000000000000000_0_0001#32).toOption = some .embed := by decide
theorem test_decode_embedK : (decode 0b000000000000000000000000000_1_0001#32).toOption = some .embedK := by decide
theorem test_decode_extract : (decode 0b000000000000000000000000000_0_0010#32).toOption = some .extract := by decide
theorem test_decode_extractK : (decode 0b000000000000000000000000000_1_0010#32).toOption = some .extractK := by decide
theorem test_decode_xorEncK : (decode 0b000000000000000000000000000_1_0011#32).toOption = some .xorEncK := by decide
theorem test_decode_xorDecK : (decode 0b000000000000000000000000000_1_0100#32).toOption = some .xorDecK := by decide
theorem test_decode_softReset : (decode 0b000000000000000000000000000_0_1111#32).toOption = some .softReset := by decide
/-- R94 and the corner cases of R201. -/
theorem test_decode_illegal :
    [0x10#32, 0x3#32, 0x4#32, 0x5#32, 0xE#32, 0x1F#32, 0x20#32, 0x80000001#32, 0xFFFFFFFF#32].map
      (fun w => (decode w).toOption) = List.replicate 9 none := by decide
/-- R94's lines in the order it lists them (log 17): words that meet two lines. -/
theorem test_decode_reason : decode 0x25#32 = .error .reservedBits ∧ decode 0x15#32 = .error .unassignedOp ∧
    decode 0x30#32 = .error .reservedBits ∧ decode 0x1F#32 = .error .keyOnControl := ⟨rfl, rfl, rfl, rfl⟩
theorem test_decodeTableWord : decodeTableWord 32 0x11 = some .embedK ∧ decodeTableWord 32 0x10 = none := by decide

/-! ### The codec: the examples of R120 to R129 and R150 to R154 -/

theorem test_group : group 0x41 = [false, true, false, false, false, false, false, true] ∧
    (group 0x100).length = 9 ∧ (group 0x20AC).length = 14 ∧ (group 0xFFFF).length = 16 := by decide
theorem test_b2t_wide : b2t (t2b [0x100]) = [0x80] ∧ b2t (t2b [0x20AC, 0x41]) = [0x82, 0xB1] := by decide
theorem test_b64Enc : b64Enc [0x4D] = [0x54, 0x51, 0x3D, 0x3D] ∧ b64Enc [0x4D, 0x61] = [0x54, 0x57, 0x45, 0x3D] ∧
    b64Enc [0x4D, 0x61, 0x6E] = [0x54, 0x57, 0x46, 0x75] := by decide
theorem test_b64Dec_loose_bits : b64Dec [0x54, 0x52, 0x3D, 0x3D] = some [0x4D] := by decide
theorem test_b64Dec_fails : b64Dec [0x41, 0x3D, 0x3D, 0x3D] = none ∧ b64Dec [0x54, 0x51, 0x3D, 0x41] = none ∧
    b64Dec [0x41] = none := by decide
theorem test_xorEncrypt : xorEncrypt [0x48, 0x69] [0x6B] = some [0x49, 0x77, 0x49, 0x3D] ∧
    xorEncrypt [0x141] [0x100] = some (b64Enc [0x41]) ∧ xorEncrypt [0x141] [0x41] = none := by decide
theorem test_xorDecrypt : xorDecrypt [0x51, 0x51, 0x3D, 0x3D] [0x100] = some [0x141] := by decide

/-! ### Each command, one step -/

/-- R200. -/
theorem test_nop : (after (exec .nop base)).map (·.statusWord) = some 0x00000002#32 := by decide +kernel
/-- R178: "HI" in a 4 by 4 image. -/
theorem test_embed :
    let r := exec .embed { base with mb := [(0, 0x48), (1, 0x49)] }
    results r = some (0, 0, 0, 24, 48) ∧
    (after r).map (fun s => (List.range 24).map fun j => (s.pb.read? (slot j)).map (·.getLsbD 0)) =
      some ((t2b [0x48, 0x49, 0xB6]).map some) := by decide +kernel
/-- R178: "HI" in a 2 by 2 image. -/
theorem test_embed_capacity :
    results (exec .embed { base with width := 2, height := 2 }) = some (2, 0, 0, 24, 12) := by decide +kernel
/-- R179: "Hi" with the key "k" in a 4 by 4 image. -/
theorem test_embedK : results (exec .embedK base) = some (0, 0, 0, 40, 48) := by decide +kernel
/-- R179: the same in a 3 by 4 image. -/
theorem test_embedK_capacity : results (exec .embedK { base with width := 3 }) = some (2, 0, 0, 40, 36) := by decide +kernel
/-- R180: the image that `test_embed` leaves. -/
theorem test_extract :
    output (exec .extract { base with pb := carrier (t2b [0x48, 0x49, 0xB6]) }) = some [some 0x48, some 0x49] := by
  decide +kernel
/-- R180: an image of zero low bits. -/
theorem test_extract_notFound : results (exec .extract base) = some (3, 0, 0, 0, 48) := by decide +kernel
/-- R181: the artifact "IwI=" and the key "k". -/
theorem test_extractK :
    output (exec .extractK { base with pb := carrier (t2b [0x49, 0x77, 0x49, 0x3D, 0xB6]) }) =
      some [some 0x48, some 0x69] := by decide +kernel
/-- R181: the same with the key "j". -/
theorem test_extractK_wrongKey :
    output (exec .extractK { base with pb := carrier (t2b [0x49, 0x77, 0x49, 0x3D, 0xB6]), kb := [(0, 0x6A)] }) =
      some [some 0x49, some 0x68] := by decide +kernel
/-- R155. -/
theorem test_xorEncK : output (exec .xorEncK base) = some [some 0x49, some 0x77, some 0x49, some 0x3D] := by decide +kernel
/-- R223: V3 comes before V5. -/
theorem test_xorEncK_order : results (exec .xorEncK { base with msgLen := 0, keyLen := 0 }) = some (1, 3, 0, 0, 0) := by
  decide +kernel
/-- R156. -/
theorem test_xorDecK :
    output (exec .xorDecK { base with msgLen := 4, mb := [(0, 0x49), (1, 0x77), (2, 0x49), (3, 0x3D)] }) =
      some [some 0x48, some 0x69] := by decide +kernel
/-- R127 (F1), R156: a text whose length is no multiple of 4. -/
theorem test_xorDecK_decode : results (exec .xorDecK base) = some (4, 1, 0, 0, 0) := by decide +kernel
/-- R202. -/
theorem test_softReset :
    (after (exec .softReset { base with hzd := true, ie := true, done := true })).map
      (fun s => (s.statusWord, s.cmdLatch, s.width, s.irq, decide (s.pb = base.pb))) =
      some (0x0#32, 0xF#32, 0x0#16, false, true) := by decide +kernel
/-- R201. -/
theorem test_illegal :
    (after (step { inFlight 0x5 with schedule := [] })).map (fun s => (s.err, s.errInfo, s.busy, s.done)) =
      some (0x6#4, 0x5#32, false, true) := by decide +kernel
/-- R262: a message unit that nothing has written. -/
theorem test_uninitRead : exec .xorEncK { base with mb := [(0, 0x48)] } = .fault (.uninitRead .mb 1) := rfl

/-! ### Placing a command word -/

theorem test_withFetchWord_engine : ∀ w ∈ [0x0, 0x1, 0x11, 0x2, 0x12, 0x13, 0x14],
    (after (step (State.reset.withFetchWord 32 w))).map (fun s => (s.busy, s.done, s.cmdLatch.toNat)) =
      some (false, true, w) := by decide +kernel
theorem test_withFetchWord_softReset :
    (after (step (State.reset.withFetchWord 32 0xF))).map (fun s => (s.busy, s.done, s.cmdLatch.toNat)) =
      some (false, false, 0xF) := by decide +kernel

/-! ### Host accesses -/

/-- R61: the two ends of the register block and of each window. -/
theorem test_decodeAddr :
    [0x000#32, 0x040#32, 0x044#32, 0xFFC#32, 0x01000000#32, 0x0100003C#32, 0x01000040#32, 0x0200000C#32, 0x02000010#32,
     0x03000004#32, 0x03000008#32, 0x0400001C#32, 0x04000020#32].map (decodeAddr tiny) =
    [some (.reg .id), some (.reg .sentinel), none, none, some (.pb 0), some (.pb 60), none, some (.mb 3), none,
     some (.kb 1), none, some (.ob 7), none] := by decide +kernel
/-- R23, R65. -/
theorem test_pixel_write :
    (after (step (asked (.wr 0x01000004 0x44332211)))).map (fun s => [4, 5, 6, 7].map s.pb.read?) =
      some [some 0x11, some 0x22, some 0x33, some 0x44] := by decide +kernel
/-- R24: clearing DONE leaves HZD. -/
theorem test_status_w1c :
    (after (step { asked .clrDone with done := true, hzd := true })).map (·.statusWord) = some 0x4#32 := by decide +kernel

/-! ### Hypotheses met, one witness or more per statement -/

theorem witness_GroupIsPaddedNumeral : (0x00FF#16).toNat ≤ 0xFF ∧ 0xFF < (0x0100#16).toNat := by decide
theorem witness_TextToBitsConcatenatesGroups : ∀ c ∈ ([0x0000, 0x00FF] : Text), c.toNat ≤ 0xFF := by simp
theorem witness_BitsToTextReadsWindows : 1 < (b2t (t2b [0x48, 0x49])).length := by decide
theorem witness_CodecRoundTrip :
    (∀ c ∈ ([0x0000, 0x00FF] : Text), c.toNat ≤ 0xFF) ∧ (List.replicate 8 true).length % 8 = 0 := by simp
theorem witness_WideUnitBreaksRoundTrip : (∀ c ∈ ([0x00FF] : Text), c.toNat ≤ 0xFF) ∧ 0xFF < (0x0100#16).toNat := by simp
theorem witness_BaseSixtyFourTextShape : (0x3D#16 : CodeUnit) ∈ b64Enc [0x4D] := by decide
theorem witness_BaseSixtyFourRoundTrip :
    b64Dec [0x54, 0x51, 0x3D, 0x3D] = some [0x4D] ∧ b64Enc [0x4D] = [0x54, 0x51, 0x3D, 0x3D] ∧
    b64Dec [0x54, 0x52, 0x3D, 0x3D] = some [0x4D] ∧ b64Enc [0x4D] ≠ [0x54, 0x52, 0x3D, 0x3D] := by decide
theorem witness_BaseSixtyFourDecodeIsStrict :
    b64Dec [] = some [] ∧ b64Dec [0x54, 0x51, 0x3D, 0x3D] = some [0x4D] ∧ b64Dec [0x41, 0x3D, 0x3D, 0x3D] = none := by decide
theorem witness_XorEncryptIsCycledXor :
    0 < ([0x41] : Text).length ∧ xorEncrypt [0x141] [0x41] = none ∧ xorEncrypt [0xBE] [0x41] = some (b64Enc [0xFF]) := by
  decide
theorem witness_XorDecryptIsCycledXor :
    0 < ([0x6B] : Text).length ∧ b64Dec [0x41] = none ∧ b64Dec [0x51, 0x51, 0x3D, 0x3D] = some [0x41] := by decide
theorem witness_XorRoundTrip :
    0 < ([0x100] : Text).length ∧
    ∀ (i : Nat) (h : i < ([0x1FF] : Text).length), (([0x1FF] : Text)[i] ^^^ ([0x100] : Text)[i % 1]'(Nat.mod_lt i (by decide))).toNat ≤ 0xFF := by
  decide
theorem witness_LsbWriteSetsOnlyBitZero : 1 ≤ 7 ∧ (lsbWrite 0x80 true).getLsbD 7 = true := by decide
theorem witness_PayloadEndsAtFirstTerminator :
    findPayload (t2b [0x48]) = none ∧ findPayload (t2b [0x48, 0xB6, 0xB6]) = some [0x48] := by decide

theorem witness_EngineStepRunsLatchedCommand :
    let s : State := { inFlight 0x11 with schedule := [] }
    s.turn = .engine ∧ s.busy = true ∧ decode s.cmdLatch = .ok .embedK := ⟨rfl, rfl, rfl⟩
theorem witness_SoftResetRunsAtCmdWrite :
    ((asked (.cmd .softReset)).HostNext (.write 4 0xF#4 0x004#32 0x0000000F#32) [] ∧ (asked (.cmd .softReset)).busy = false) ∧
    (askedBusy (.cmd .softReset)).HostNext (.write 4 0xF#4 0x004#32 0x0000000F#32) [] ∧
    (askedBusy (.cmd .softReset)).busy = true := by decide +kernel
theorem witness_AcceptanceLatchesTheWord :
    ((asked (.cmdw 0xF)).HostNext (.write 4 0xF#4 0x004#32 0xF#32) [] ∧ (asked (.cmdw 0xF)).busy = false) ∧
    ((asked (.cmdw 0x1F)).HostNext (.write 4 0xF#4 0x004#32 0x1F#32) [] ∧ (asked (.cmdw 0x1F)).busy = false) ∧
    (askedBusy (.cmdw 0x1)).HostNext (.write 4 0xF#4 0x004#32 0x1#32) [] ∧ (askedBusy (.cmdw 0x1)).busy = true := by
  decide +kernel
theorem witness_IllegalWordCompletes :
    ((asked (.cmdw 0x10)).HostNext (.write 4 0xF#4 0x004#32 0x10#32) [] ∧ (asked (.cmdw 0x10)).busy = false) ∧
    (let s : State := { inFlight 0x10 with schedule := [] }
     s.turn = .engine ∧ s.busy = true ∧ s.cmdLatch = 0x10#32) ∧ ∀ i : Instr, encode i ≠ 0x10#32 := by
  refine ⟨by decide +kernel, by decide +kernel, fun i => ?_⟩
  cases i <;> decide
theorem witness_HostTurnLeavesCommandInFlight :
    (askedBusy .clrHzd).turn = .host ∧ (askedBusy .clrHzd).busy = true ∧
    (after (step (askedBusy .clrHzd))).isSome = true := by decide +kernel
theorem witness_WaitsEndWhenTheirConditionHolds :
    (asked .wait).HostNext (.poll 0x008 0x1 0x0) [] ∧ (asked .awaitIrq).HostNext .awaitIrq [] := by decide +kernel

theorem witness_EmbedWritesThePayload :
    base.MemoriesWf ∧ base.HasImage ∧ base.HasMessage [0x48, 0x69] ∧
    (t2b ([0x48, 0x69] ++ [0x00B6#16])).length ≤ 3 * base.width.toNat * base.height.toNat ∧
    base.SlotsWritten (t2b ([0x48, 0x69] ++ [0x00B6#16])).length := by decide +kernel
theorem witness_EmbedKeyedWritesThePayload :
    base.HasKey [0x6B] ∧ xorEncrypt [0x48, 0x69] [0x6B] = some [0x49, 0x77, 0x49, 0x3D] ∧
    (t2b ([0x49, 0x77, 0x49, 0x3D] ++ [0x00B6#16])).length ≤ 3 * base.width.toNat * base.height.toNat ∧
    base.SlotsWritten (t2b ([0x49, 0x77, 0x49, 0x3D] ++ [0x00B6#16])).length ∧
    base.MemoriesWf ∧ base.HasImage ∧ base.HasMessage [0x48, 0x69] := by decide +kernel

/-- The low bits of "IwI=", the terminator, and eight zeros. -/
def hidden : Bits := t2b [0x49, 0x77, 0x49, 0x3D, 0xB6, 0x00]

/-- `base` with `hidden` in its image. -/
def loaded : State := { base with pb := carrier hidden }

theorem witness_ExtractRecoversTheText :
    loaded.MemoriesWf ∧ loaded.HasImage ∧ loaded.HasLsbs hidden ∧
    b2t hidden = [0x49, 0x77, 0x49, 0x3D] ++ 0x00B6#16 :: [0x00] ∧ ¬ 0x00B6#16 ∈ ([0x49, 0x77, 0x49, 0x3D] : Text) := by
  decide +kernel
theorem witness_ExtractKeyedRecoversTheText :
    loaded.MemoriesWf ∧ loaded.HasImage ∧ loaded.HasKey [0x6B] ∧ loaded.HasLsbs hidden ∧
    b2t hidden = [0x49, 0x77, 0x49, 0x3D] ++ 0x00B6#16 :: [0x00] ∧ ¬ 0x00B6#16 ∈ ([0x49, 0x77, 0x49, 0x3D] : Text) ∧
    xorDecrypt [0x49, 0x77, 0x49, 0x3D] [0x6B] = some [0x48, 0x69] := by decide +kernel
theorem witness_XorEncryptToOutput :
    base.MemoriesWf ∧ base.HasMessage [0x48, 0x69] ∧ base.HasKey [0x6B] ∧
    xorEncrypt [0x48, 0x69] [0x6B] = some [0x49, 0x77, 0x49, 0x3D] := by decide +kernel

/-- `base` with the artifact "IwI=" as its message. -/
def artifact : State := { base with msgLen := 4, mb := [(0, 0x49), (1, 0x77), (2, 0x49), (3, 0x3D)] }

theorem witness_XorDecryptToOutput :
    artifact.MemoriesWf ∧ artifact.HasMessage [0x49, 0x77, 0x49, 0x3D] ∧ artifact.HasKey [0x6B] ∧
    xorDecrypt [0x49, 0x77, 0x49, 0x3D] [0x6B] = some [0x48, 0x69] := by decide +kernel

theorem witness_FirstFailingCheckIsReported :
    Instr.checks .extractK = [.v1, .v2] ++ .v5 :: [.v6] ∧
    (∀ d ∈ [Check.v1, .v2], d.fails { base with keyLen := 0 } = false) ∧ Check.v5.fails { base with keyLen := 0 } = true ∧
    Instr.checks .embed = [] ++ .v1 :: [.v2, .v3, .v4] ∧ Check.v1.fails { base with height := 0 } = true := by
  decide +kernel
theorem witness_OversizePayloadRaisesCapacity :
    let small : State := { base with width := 2, height := 4 }
    let exact : State := { base with width := 2, height := 4, msgLen := 2 }
    exact.HasImage ∧ exact.HasMessage [0x48, 0x69] ∧ (t2b ([0x48, 0x69] ++ [0x00B6#16])).length = 3 * 2 * 4 ∧
    (t2b ([0x48, 0x69] ++ [0x00B6#16])).length ≤ 3 * exact.width.toNat * exact.height.toNat ∧
    small.HasImage ∧ small.HasMessage [0x48, 0x69] ∧ small.HasKey [0x6B] ∧
    xorEncrypt [0x48, 0x69] [0x6B] = some [0x49, 0x77, 0x49, 0x3D] ∧
    3 * small.width.toNat * small.height.toNat < (t2b ([0x49, 0x77, 0x49, 0x3D] ++ [0x00B6#16])).length := by decide +kernel
theorem witness_OversizePayloadRaisesCapacity_unkeyed :
    let small : State := { base with width := 1, height := 7 }
    small.HasImage ∧ small.HasMessage [0x48, 0x69] ∧
    3 * small.width.toNat * small.height.toNat < (t2b ([0x48, 0x69] ++ [0x00B6#16])).length ∧
    base.HasImage ∧ base.HasKey [0x6B] ∧
    (t2b ([0x49, 0x77, 0x49, 0x3D] ++ [0x00B6#16])).length ≤ 3 * base.width.toNat * base.height.toNat := by decide +kernel
theorem witness_MissingTerminatorRaisesNotFound :
    base.HasImage ∧ base.HasLsbs (List.replicate 48 false) ∧ ¬ 0x00B6#16 ∈ b2t (List.replicate 48 false) ∧
    base.keyLen ≠ 0 ∧ base.keyLen.toNat ≤ base.build.kbUnits := by decide +kernel

/-- An image that holds "A" and the terminator: no Base64. -/
def badArtifact : State := { base with pb := carrier (t2b [0x41, 0xB6, 0x00, 0x00, 0x00, 0x00]), mb := [(0, 0x148), (1, 0x69)] }

theorem witness_TransformFailureRaisesDecode :
    badArtifact.HasKey [0x6B] ∧ badArtifact.HasImage ∧ badArtifact.HasMessage [0x148, 0x69] ∧
    xorEncrypt [0x148, 0x69] [0x6B] = none ∧ b64Dec [0x148, 0x69] = none ∧
    badArtifact.HasLsbs (t2b [0x41, 0xB6, 0x00, 0x00, 0x00, 0x00]) ∧
    b2t (t2b [0x41, 0xB6, 0x00, 0x00, 0x00, 0x00]) = [0x41] ++ 0x00B6#16 :: [0, 0, 0, 0] ∧
    ¬ 0x00B6#16 ∈ ([0x41] : Text) ∧ b64Dec [0x41] = none := by decide +kernel
theorem witness_UnwrittenReadIsTheFault :
    exec .xorEncK { base with mb := [(0, 0x48)] } = .fault (.uninitRead .mb 1) ∧ base.MemoriesWf ∧
    (∀ c ∈ [Check.v1, .v2, .v3, .v4, .v5, .v6], c.fails base = false) ∧ base.MessageWritten ∧ base.KeyWritten ∧
    base.SlotsWritten (3 * base.width.toNat * base.height.toNat) :=
  ⟨rfl, by decide +kernel⟩
/-- Each unwritten element that R262 lists, and no other, stops a command: the last message unit, the last key unit, the last
slot of a payload, the last slot of an image. -/
theorem test_unwritten_reads :
    let noMsg : State := { base with mb := [(0, 0x48)] }
    let noKey : State := { loaded with keyLen := 2 }
    let noSlot (j : Nat) (s : State) : State := { s with pb := s.pb.filter fun c => c.1 ≠ slot j }
    [exec .embed noMsg, exec .embedK noMsg, exec .xorEncK noMsg, exec .xorDecK noMsg, exec .embedK noKey,
      exec .extractK noKey, exec .xorEncK noKey, exec .xorDecK noKey, exec .embed (noSlot 23 base),
      exec .embedK (noSlot 39 base), exec .extract (noSlot 47 base), exec .extractK (noSlot 47 loaded)].map
        (fun r => (after r).isSome) = List.replicate 12 false ∧
    [exec .embed noKey, exec .extract noKey, exec .extract noMsg, exec .extractK noMsg, exec .embed (noSlot 24 base),
      exec .embedK (noSlot 40 base), exec .xorEncK (noSlot 0 base), exec .extractK { base with keyLen := 2 }].map
        (fun r => (after r).isSome) = List.replicate 8 true := by decide +kernel
theorem witness_CommandCompletesOrFaults : Instr.embedK ≠ .softReset := by decide
theorem witness_ErrorWritesNoMemory :
    Instr.extract ≠ .softReset ∧ (after (exec .extract base)).map (·.err) = some 0x3#4 ∧ (0x3#4 : BitVec 4) ≠ 0 := by
  decide +kernel
theorem witness_EngineCommandFrame :
    (∀ i ∈ [Instr.nop, .embed, .embedK, .extract, .extractK, .xorEncK], i ≠ .softReset ∧ (after (exec i base)).isSome = true) ∧
    (after (exec .xorDecK artifact)).isSome = true := by decide +kernel
theorem witness_EmbedChangesOnlyPayloadLsbs :
    base.build.Valid ∧ base.MemoriesWf ∧ (after (exec .embed base)).isSome = true ∧
    (after (exec .embedK base)).map (·.bitLen.toNat) = some 40 := by decide +kernel
theorem witness_CompletionDrivesIrq :
    (after (exec .nop { base with ie := true })).map (·.irq) = some true ∧
    (after (exec .softReset { base with ie := true })).map (·.irq) = some false ∧
    (let s : State := { inFlight 0x10 with schedule := [], ie := true }
     s.turn = .engine ∧ s.busy = true ∧ s.cmdLatch ≠ 0x0000000F#32 ∧ (after (step s)).map (·.irq) = some true) := by
  decide +kernel
theorem witness_HardwareResetValues : ({ inFlight 0x1 with schedule := [.rst] } : State).turn = .rst := by decide +kernel
theorem witness_ResetMeetsInvariant : tiny.Valid := by decide
theorem witness_StepKeepsInvariant :
    let s : State := { inFlight 0x1 with schedule := [] }
    s.Inv ∧ (after (step s)).isSome = true :=
  ⟨⟨by decide +kernel, by decide +kernel, by decide +kernel, by decide +kernel, by decide +kernel⟩, by decide +kernel⟩
theorem witness_WellFormedProgramMeetsNoHazard :
    let s : State := { base with program := [.cmd .embed, .wait, .cmd .extract, .clrHzd, .wait, .rd 0x020] }
    s.Disciplined ∧ (after (step s)).isSome = true := by decide +kernel
/-- A program that does not wait is not well formed (R104); one that ends on a command is (log 13). -/
theorem test_undisciplined :
    ¬ ({ base with program := [.cmd .embed, .cmd .extract] } : State).Disciplined ∧
    ({ base with program := [.cmd .embed] } : State).Disciplined := by decide +kernel
/-- R101 and R103: the encoding of `RD 0x020`, `CLRDONE` and `WAIT`. -/
theorem test_programEncoding :
    programEncoding [.rd 0x020, .clrDone, .wait] = [.read 0x020, .write 0x008 0x2, .readLoop 0x008] := by decide
theorem witness_CommandEndsAfterTheSchedule :
    (inFlight 0x1).busy = true ∧ (inFlight 0x1).cmdLatch ≠ 0x0000000F#32 ∧ (inFlight 0x1).schedule.length = 1 ∧
    ¬ Turn.rst ∈ (inFlight 0x1).schedule := by decide +kernel

theorem witness_AddressMapOfTheBlock : tiny.Valid ∧ Build.reference.Valid := by decide
theorem witness_BusErrorChangesNothing :
    (asked (.write 2 0xF#4 0x010 0)).HostNext (.write 2 0xF#4 0x010 0) [] ∧
    (asked (.write 4 0x7#4 0x010 0)).HostNext (.write 4 0x7#4 0x010 0) [] ∧
    ((asked (.wr 0x012 0)).HostNext (.write 4 0xF#4 0x012 0) [] ∧ (0x012#32).toNat % 4 ≠ 0) ∧
    ((asked (.wr 0x044 0)).HostNext (.write 4 0xF#4 0x044 0) [] ∧ decodeAddr tiny 0x044 = none) ∧
    ((asked (.read 1 0x008)).HostNext (.read 1 0x008) [] ∧ (1 : Nat) ≠ 4) ∧
    ((asked (.rd 0x01000040)).HostNext (.read 4 0x01000040) [] ∧ decodeAddr tiny 0x01000040 = none) := by decide +kernel
theorem witness_BusyWriteIsDropped :
    (∀ a ∈ [0x004#32, 0x010#32, 0x014#32, 0x018#32, 0x01C#32, 0x01000000#32, 0x0100003C#32, 0x0200000C#32, 0x03000004#32],
      (askedBusy (.wr a 0xFFFFFFFF)).HostNext (.write 4 0xF#4 a 0xFFFFFFFF) [] ∧ (askedBusy (.wr a 0xFFFFFFFF)).busy = true ∧
      a.toNat % 4 = 0) ∧
    [0x004#32, 0x010#32, 0x014#32, 0x018#32, 0x01C#32, 0x01000000#32, 0x0100003C#32, 0x0200000C#32, 0x03000004#32].map
      (decodeAddr tiny) =
      [some (.reg .cmd), some (.reg .width), some (.reg .height), some (.reg .msgLen), some (.reg .keyLen), some (.pb 0),
       some (.pb 60), some (.mb 3), some (.kb 1)] ∧ (inFlight 0x1).build = tiny := by
  refine ⟨fun a ha => ?_, by decide +kernel, rfl⟩
  simp only [List.mem_cons, List.not_mem_nil, or_false] at ha
  rcases ha with rfl | rfl | rfl | rfl | rfl | rfl | rfl | rfl | rfl <;> decide +kernel
theorem witness_RegisterWritesFollowAccessTypes (a : Word) :
    ((asked (.wr a 0xFFFFFFFF)).HostNext (.write 4 0xF#4 a 0xFFFFFFFF) [] ∧ (asked (.wr a 0xFFFFFFFF)).busy = false) ∧
    (askedBusy (.wr a 0x6)).HostNext (.write 4 0xF#4 a 0x6) [] ∧ (askedBusy (.wr a 0x6)).busy = true :=
  ⟨⟨⟨rfl, rfl⟩, rfl⟩, ⟨rfl, rfl⟩, rfl⟩
theorem witness_RegisterReadsFollowTheMap : base.busy = false ∧ State.reset.busy = false := by decide +kernel
theorem witness_BusyReadsOfResultsAreDraws :
    (inFlight 0x1).busy = true ∧
    [0x020#32, 0x024#32, 0x028#32, 0x02C#32, 0x0100003C#32, 0x0400001C#32, 0x0200000C#32, 0x03000004#32, 0x010#32].map
      (decodeAddr (inFlight 0x1).build) =
      [some (.reg .outLen), some (.reg .errInfo), some (.reg .bitLen), some (.reg .capacity), some (.pb 60), some (.ob 7),
       some (.mb 3), some (.kb 1), some (.reg .width)] ∧ (0x0400001C#32).toNat % 4 = 0 := by decide +kernel
theorem witness_HostReadChangesNothing : (asked (.rd 0x004)).HostNext (.read 4 0x004) [] := by decide +kernel
theorem witness_PixelWindowIsLittleEndian :
    let s := asked (.wr 0x0100003C 0x44332211)
    s.build.Valid ∧ s.MemoriesWf ∧ s.busy = false ∧ 60 % 4 = 0 ∧ 60 < s.build.pbBytes ∧
    s.HostNext (.write 4 0xF#4 (BitVec.ofNat 32 (0x01000000 + 60)) 0x44332211) [] ∧
    [60, 61, 62, 63].map s.pb.read? = [some 0xA0, some 0xA0, some 0xA0, some 0xFF] := by decide +kernel
theorem witness_UnitWritesToTheTextWindows :
    base.build.Valid ∧ base.MemoriesWf ∧ base.busy = false ∧
    (asked (.wr 0x0200000C 0x10041)).HostNext (.write 4 0xF#4 (BitVec.ofNat 32 (0x02000000 + 4 * 3)) 0x10041) [] ∧
    3 < base.build.mbUnits ∧
    (asked (.wr 0x03000004 0x10041)).HostNext (.write 4 0xF#4 (BitVec.ofNat 32 (0x03000000 + 4 * 1)) 0x10041) [] ∧
    1 < base.build.kbUnits ∧
    (askedBusy (.wr 0x0400001C 0x41)).HostNext (.write 4 0xF#4 (BitVec.ofNat 32 (0x04000000 + 4 * 7)) 0x41) [] ∧
    7 < base.build.obUnits := by decide +kernel
theorem witness_UnwrittenElementsReadAsDraws :
    let s : State := { base with pb := [(61, 0xA0)], mb := [] }
    s.build.Valid ∧ s.busy = false ∧ 60 % 4 = 0 ∧ 60 < s.build.pbBytes ∧
    [60, 61, 62, 63].map s.pb.read? = [none, some 0xA0, none, none] ∧ 3 < s.build.mbUnits ∧ s.mb.read? 3 = none ∧
    1 < s.build.kbUnits ∧ s.kb.read? 1 = none ∧ s.kb.read? 0 = some 0x6B := by decide +kernel
theorem witness_OutputReadsUpToItsLength :
    let s : State := { base with outLen := 1, ob := [(0, 0x48), (1, 0x49)] }
    s.build.Valid ∧ s.busy = false ∧ (0 < s.build.obUnits ∧ 0 < s.outLen.toNat ∧ s.ob.read? 0 = some 0x48) ∧
    1 < s.build.obUnits ∧ s.outLen.toNat ≤ 1 := by decide +kernel
theorem witness_UnkeyedRoundTrip :
    (∀ c ∈ ([0x48, 0x69] : Text), c.toNat ≤ 0xFF) ∧
    base.build.Valid ∧ base.MemoriesWf ∧ base.HasImage ∧ base.HasMessage [0x48, 0x69] ∧
    8 * (([0x48, 0x69] : Text).length + 1) ≤ 3 * base.width.toNat * base.height.toNat ∧
    base.SlotsWritten (3 * base.width.toNat * base.height.toNat) ∧ ¬ 0x00B6#16 ∈ ([0x48, 0x69] : Text) :=
  ⟨by simp, by decide +kernel⟩
/-- The terminator inside the message (R185). -/
theorem witness_UnkeyedRoundTrip_terminator :
    State.HasMessage { base with mb := [(0, 0x41), (1, 0xB6)] } [0x41, 0xB6] ∧
    (([0x41, 0xB6] : Text).takeWhile (· ≠ 0x00B6#16)).length = 1 := by decide +kernel
theorem witness_KeyedRoundTrip :
    0 < ([0x6B] : Text).length ∧ base.build.Valid ∧ base.MemoriesWf ∧ base.HasImage ∧ base.HasMessage [0x48, 0x69] ∧
    base.HasKey [0x6B] ∧
    (∀ (i : Nat) (h : i < ([0x48, 0x69] : Text).length), (([0x48, 0x69] : Text)[i] ^^^ ([0x6B] : Text)[i % 1]'(Nat.mod_lt i (by decide))).toNat ≤ 0xFF) ∧
    32 * ((([0x48, 0x69] : Text).length + 2) / 3) + 8 ≤ 3 * base.width.toNat * base.height.toNat ∧
    base.SlotsWritten (3 * base.width.toNat * base.height.toNat) := by decide +kernel
theorem witness_UnkeyedExtractGivesArtifact :
    base.build.Valid ∧ base.MemoriesWf ∧ base.HasImage ∧ base.HasMessage [0x48, 0x69] ∧ base.HasKey [0x6B] ∧
    xorEncrypt [0x48, 0x69] [0x6B] = some [0x49, 0x77, 0x49, 0x3D] ∧
    8 * (([0x49, 0x77, 0x49, 0x3D] : Text).length + 1) ≤ 3 * base.width.toNat * base.height.toNat ∧
    base.SlotsWritten (3 * base.width.toNat * base.height.toNat) := by decide +kernel

end Sys2Proof.Tests
end

/-! SUPPORT. How long the texts are that the codec, the XOR cipher and the channel produce, and what the passed checks of
a command bound. -/

namespace Sys2Proof.Machine

/-! ### Codec -/

theorem b2t_length (b : Bits) : (b2t b).length = b.length / 8 := by
  induction b using window_induction with
  | short b h => rw [b2t_short b h]; simp; omega
  | window a b ha ih => rw [b2t_append a b ha]; simp; omega

theorem b64Enc_length (x : List Byte) : (b64Enc x).length = 4 * ((x.length + 2) / 3) := by
  induction x using b64Enc.induct with
  | case1 => rfl
  | case2 a => simp [b64Enc]
  | case3 a b => simp [b64Enc]
  | case4 a b c rest ih => simp only [b64Enc, List.length_cons, ih]; omega

theorem b64DecGroups_length_le (p : Nat) (t : Text) : (b64DecGroups p t).length ≤ t.length := by
  induction t using b64DecGroups.induct with
  | case1 a b c d => simp [b64DecGroups, b64Bytes]; omega
  | case2 a b c d rest hrest ih => simp [b64DecGroups, b64Bytes]; omega
  | case3 t h4 hmore => rw [b64DecGroups] <;> simp_all

theorem b64Dec_length_le (t : Text) (x : List Byte) (h : b64Dec t = some x) : x.length ≤ t.length := by
  unfold b64Dec at h
  split_ifs at h
  cases h
  exact b64DecGroups_length_le _ t

/-! ### XOR cipher and channel -/

@[simp] theorem xorCycled_length (t k : Text) : (xorCycled t k).length = t.length := by
  simp [xorCycled]

theorem xorEncrypt_length (m k a : Text) (h : xorEncrypt m k = some a) : a.length = 4 * ((m.length + 2) / 3) := by
  simp only [xorEncrypt] at h
  split_ifs at h
  cases h
  simp [b64Enc_length]

theorem xorDecrypt_length_le (a k m : Text) (h : xorDecrypt a k = some m) : m.length ≤ a.length := by
  obtain ⟨x, hx, rfl⟩ := Option.map_eq_some_iff.1 h
  simpa using b64Dec_length_le a x hx

/-- A payload found takes 8 bits of the image for each of its units. -/
theorem findPayload_length_le (bits : Bits) (r : Text) (h : findPayload bits = some r) :
    8 * r.length ≤ bits.length := by
  unfold findPayload at h
  split_ifs at h
  cases h
  have htake := ((b2t bits).takeWhile_sublist (· ≠ sentinel)).length_le
  rw [b2t_length] at htake
  omega

/-! ### A command's reads and checks -/

theorem State.messageText_length (s : State) (m : Text) (h : s.messageText = .ok m) : m.length = s.msgLen.toNat := by
  simpa using memReadAll_length _ _ _ _ h

theorem Check.v2_passes_iff (s : State) : Check.fails .v2 s = false ↔ s.imageBytes ≤ s.build.pbBytes := by
  simp [Check.fails]

theorem Check.v4_passes_iff (s : State) : Check.fails .v4 s = false ↔ s.msgLen.toNat ≤ s.build.mbUnits := by
  simp [Check.fails]

/-- Where V4 passes, a message read fits MB (R223). -/
theorem State.messageText_length_le (s : State) (m : Text) (h4 : Check.fails .v4 s = false)
    (h : s.messageText = .ok m) : m.length ≤ s.build.mbUnits :=
  s.messageText_length m h ▸ (Check.v4_passes_iff s).1 h4

/-- Where V2 passes, a payload found in the image fits OB: this is what R12's bound on P_OB_UNITS is for. -/
theorem findPayload_length_le_obUnits (s : State) (hb : s.build.Valid) (bits : Bits) (r : Text)
    (h2 : Check.fails .v2 s = false) (hbits : gatherLsbs s.pb s.capacityBits = .ok bits)
    (hr : findPayload bits = some r) : r.length ≤ s.build.obUnits := by
  obtain ⟨-, -, -, -, -, -, -, hob, -, -⟩ := hb
  have hfit : 4 * (s.width.toNat * s.height.toNat) ≤ s.build.pbBytes := by
    simpa [State.imageBytes, Nat.mul_assoc] using (Check.v2_passes_iff s).1 h2
  have hcount : bits.length = 3 * (s.width.toNat * s.height.toNat) := by
    rw [((gatherLsbs_iff_hasLsbs s bits).1 hbits).1, Nat.mul_assoc]
  have := findPayload_length_le bits r hr
  omega

end Sys2Proof.Machine

/-! SUPPORT. Every turn of the engine keeps the invariant of the block. -/

namespace Sys2Proof.Machine

/-! ### What holds while a command runs -/

/-- The invariant of the block as a command in flight needs it: what `State.Inv` says of such a state, without the
clauses that the command's own register writes break (CAPACITY and BITLEN are written before the command
completes, R177, R178). -/
structure State.Running (s : State) : Prop where
  valid : s.build.Valid
  memories : s.MemoriesWf
  outLen : s.outLen = 0
  errInfo : s.errInfo = 0
  hazard : s.HazardWf

theorem State.Inv.running {s : State} (h : s.Inv) (hb : s.busy = true) : s.Running := by
  obtain ⟨hv, hm, hf, -, hz⟩ := h
  obtain ⟨-, -, hout, hinfo, -⟩ := hf hb
  exact ⟨hv, hm, hout, hinfo, hz⟩

theorem State.Running.withCapacity {s : State} (h : s.Running) : s.withCapacity.Running :=
  ⟨h.valid, h.memories, h.outLen, h.errInfo, h.hazard⟩

/-- Every next state that a result answers has the invariant; a fault answers none. -/
def AnswersInv (r : Result) : Prop := ∀ t, r = .next t → t.Inv

theorem answersInv_next {t : State} (h : t.Inv) : AnswersInv (.next t) := by
  rintro _ ⟨⟩
  exact h

theorem answersInv_fault (f : Fault) : AnswersInv (.fault f) := by
  rintro _ ⟨⟩

/-- Where there is no output, the results agree as soon as ERR and ERR_INFO do (R224). -/
theorem State.resultsWf_of_noOutput {s : State} (hlegal : legalErr s.err) (hout : s.outLen = 0)
    (hinfo : s.err = ErrCode.none.code → s.errInfo = 0) : s.ResultsWf :=
  ⟨hlegal, fun _ => hout, hinfo, by simp [hout], by simp [hout]⟩

/-! ### The ends of a command -/

theorem ErrCode.code_eq_none_iff (c : ErrCode) : c.code = ErrCode.none.code ↔ c = .none := by
  cases c <;> decide

/-- An error ends in the invariant: OUT_LEN is still at acceptance's 0 (R224, R231). -/
theorem State.Running.raise {s : State} (h : s.Running) (code : ErrCode) (info : Word) (hlegal : legalErr code.code)
    (hne : code ≠ .none) : AnswersInv (s.raise code info) := by
  have hcode : code.code ≠ ErrCode.none.code := mt code.code_eq_none_iff.1 hne
  exact answersInv_next ⟨h.valid, h.memories, nofun,
    State.resultsWf_of_noOutput hlegal h.outLen fun h0 => absurd h0 hcode, h.hazard⟩

/-- A success that writes no output ends in the invariant (R232). -/
theorem State.Running.returnOk {s : State} (h : s.Running) : AnswersInv s.returnOk :=
  answersInv_next ⟨h.valid, h.memories, nofun,
    State.resultsWf_of_noOutput (.inl rfl) h.outLen fun _ => h.errInfo, h.hazard⟩

/-- A success that writes a text of no more units than OB has ends in the invariant: the OUT_LEN field holds the length
without cutting it, and each unit below OUT_LEN has just been written (R13, R44). -/
theorem State.Running.emit {s : State} (h : s.Running) (t : Text) (ht : t.length ≤ s.build.obUnits) :
    AnswersInv (s.emit t) := by
  obtain ⟨hpb, hmb, hkb, hob⟩ := h.memories
  obtain ⟨-, -, -, -, -, -, -, -, -, hsize⟩ := h.valid
  have hlen : (BitVec.ofNat 24 t.length).toNat = t.length := by
    rw [BitVec.toNat_ofNat]; omega
  have hwritten : ∀ u < t.length, ((s.ob.writeFrom 0 t).read? u).isSome := fun u hu => by
    rw [Memory.read?_writeFrom t s.ob 0 hob.1 u]
    simp [hu]
  have hob' : (s.ob.writeFrom 0 t).wf s.build.obUnits := Memory.writeFrom_wf _ t s.ob 0 hob (by omega)
  refine answersInv_next ⟨h.valid, ⟨hpb, hmb, hkb, hob'⟩, nofun,
    ⟨.inl rfl, fun h0 => absurd rfl h0, fun _ => h.errInfo, ?_, ?_⟩, h.hazard⟩
  · simpa only [hlen] using ht
  · simpa only [hlen] using hwritten

/-! ### The parts of a command -/

theorem State.Running.validated {s : State} (h : s.Running) (checks : List Check) (body : Result)
    (hbody : (∀ c ∈ checks, c.fails s = false) → AnswersInv body) : AnswersInv (s.validated checks body) := by
  rcases s.validated_cases checks body with ⟨c, -, -, hc⟩ | ⟨hpass, hc⟩ <;> rw [hc]
  · exact h.raise .validation c.info (by decide) nofun
  · exact hbody hpass

theorem answersInv_orFault {α : Type} (r : Except Fault α) (k : α → Result)
    (h : ∀ v, r = .ok v → AnswersInv (k v)) : AnswersInv (orFault r k) := by
  cases r with
  | ok v => exact h v rfl
  | error f => exact answersInv_fault f

theorem State.Running.embedPayload {s : State} (h : s.Running) (p : Text) : AnswersInv (embedPayload p s) := by
  obtain ⟨hpb, hothers⟩ := h.memories
  rcases embedPayload_cases p s with ⟨-, he⟩ | ⟨pb, -, hloop, he⟩ | ⟨f, -, he⟩ <;> rw [he]
  · have hrun : State.Running { s with bitLen := BitVec.ofNat 32 (embedBits p).length } :=
      ⟨h.valid, h.memories, h.outLen, h.errInfo, h.hazard⟩
    exact hrun.raise .capacity 0 (by decide) nofun
  · have hrun : State.Running { s with bitLen := BitVec.ofNat 32 (embedBits p).length, pb := pb } :=
      ⟨h.valid, ⟨embedLoop_wf _ _ _ _ _ hpb hloop, hothers⟩, h.outLen, h.errInfo, h.hazard⟩
    exact hrun.returnOk
  · exact answersInv_fault f

/-! ### The commands -/

theorem State.Running.execEmbed {s : State} (h : s.Running) : AnswersInv (execEmbed s) :=
  h.validated _ _ fun _ => answersInv_orFault _ _ fun m _ => h.withCapacity.embedPayload m

theorem State.Running.execEmbedK {s : State} (h : s.Running) : AnswersInv (execEmbedK s) := by
  refine h.validated _ _ fun _ => answersInv_orFault _ _ fun m _ => answersInv_orFault _ _ fun k _ => ?_
  cases xorEncrypt m k with
  | some p => exact h.withCapacity.embedPayload p
  | none => exact h.withCapacity.raise .decode 0x2 (by decide) nofun

theorem State.Running.execExtract {s : State} (h : s.Running) : AnswersInv (execExtract s) := by
  refine h.validated _ _ fun hpass => answersInv_orFault _ _ fun bits hbits => ?_
  cases hr : findPayload bits with
  | some r =>
    exact h.withCapacity.emit r (findPayload_length_le_obUnits s h.valid bits r (hpass .v2 (by simp)) hbits hr)
  | none => exact h.withCapacity.raise .notFound 0 (by decide) nofun

theorem State.Running.execExtractK {s : State} (h : s.Running) : AnswersInv (execExtractK s) := by
  refine h.validated _ _ fun hpass => answersInv_orFault _ _ fun bits hbits => ?_
  cases hr : findPayload bits with
  | none => exact h.withCapacity.raise .notFound 0 (by decide) nofun
  | some r =>
    refine answersInv_orFault _ _ fun k _ => ?_
    cases hm : xorDecrypt r k with
    | some m =>
      exact h.withCapacity.emit m ((xorDecrypt_length_le r k m hm).trans
        (findPayload_length_le_obUnits s h.valid bits r (hpass .v2 (by simp)) hbits hr))
    | none => exact h.withCapacity.raise .decode 0x1 (by decide) nofun

theorem State.Running.execXorEncK {s : State} (h : s.Running) : AnswersInv (execXorEncK s) := by
  refine h.validated _ _ fun hpass => answersInv_orFault _ _ fun m hm => answersInv_orFault _ _ fun k _ => ?_
  cases ha : xorEncrypt m k with
  | some a =>
    refine h.emit a ?_
    obtain ⟨-, -, -, -, -, -, -, -, hob, -⟩ := h.valid
    have hlen := xorEncrypt_length m k a ha
    have hmb := s.messageText_length_le m (hpass .v4 (by simp)) hm
    omega
  | none => exact h.raise .decode 0x2 (by decide) nofun

theorem State.Running.execXorDecK {s : State} (h : s.Running) : AnswersInv (execXorDecK s) := by
  refine h.validated _ _ fun hpass => answersInv_orFault _ _ fun a ha => answersInv_orFault _ _ fun k _ => ?_
  cases hm : xorDecrypt a k with
  | some m =>
    refine h.emit m ?_
    obtain ⟨-, -, -, -, -, -, -, -, hob, -⟩ := h.valid
    have hlen := xorDecrypt_length_le a k m hm
    have hmb := s.messageText_length_le a (hpass .v4 (by simp)) ha
    omega
  | none => exact h.raise .decode 0x1 (by decide) nofun

theorem State.Running.exec {s : State} (h : s.Running) (i : Instr) (hi : i ≠ .softReset) : AnswersInv (exec i s) := by
  cases i with
  | nop => exact h.returnOk
  | embed => exact h.execEmbed
  | embedK => exact h.execEmbedK
  | extract => exact h.execExtract
  | extractK => exact h.execExtractK
  | xorEncK => exact h.execXorEncK
  | xorDecK => exact h.execXorDecK
  | softReset => exact absurd rfl hi

/-! ### The engine's turn -/

theorem eq_of_decode_softReset (w : Word) (h : decode w = .ok .softReset) : w = 0x0000000F#32 := by
  unfold decode at h
  split_ifs at h <;> simp_all

theorem State.Inv.engineTurn {s : State} (h : s.Inv) : AnswersInv s.engineTurn := by
  unfold State.engineTurn
  split
  next hb =>
    have hrun := h.running hb
    obtain ⟨-, -, hflight, -⟩ := h
    obtain ⟨-, -, -, -, -, -, hlatch⟩ := hflight hb
    split
    next i hi =>
      refine hrun.exec i fun hsoft => hlatch ?_
      exact eq_of_decode_softReset _ (hsoft ▸ hi)
    next => exact hrun.raise .illegalCmd s.cmdLatch (by decide) nofun
  next => exact answersInv_next h

end Sys2Proof.Machine

/-! SUPPORT. Every turn of the host and every reset keeps the invariant of the block, and so does every step. -/

namespace Sys2Proof.Machine

/-! ### Writes to registers -/

/-- A STATUS write only clears DONE and HZD, so it breaks neither the in-flight clause nor the clause on HZD (R29). -/
theorem State.Inv.writeStatus {s : State} (h : s.Inv) (data : Word) : (s.writeStatus data).Inv := by
  obtain ⟨hv, hm, hf, hr, hz⟩ := h
  refine ⟨hv, hm, fun hb => ?_, hr, fun hzd => hz ?_⟩
  · obtain ⟨hdone, hrest⟩ := hf hb
    exact ⟨by simp [hdone], hrest⟩
  · rw [State.writeStatus_hzd, Bool.and_eq_true] at hzd
    exact hzd.1

/-- STATUS is the only register besides CMD whose write the invariant sees. -/
theorem State.Inv.writeReg {s : State} (h : s.Inv) (data : Word) (r : Reg) : (s.writeReg data r).Inv := by
  cases r with
  | status => exact h.writeStatus data
  | _ => exact h

theorem State.Inv.accept {s : State} (h : s.Inv) (w : Word) (hw : w ≠ 0x0000000F#32) : (s.accept w).Inv := by
  obtain ⟨hv, hm, -, -, hz⟩ := h
  exact ⟨hv, hm, fun _ => ⟨rfl, rfl, rfl, rfl, rfl, rfl, hw⟩,
    State.resultsWf_of_noOutput (.inl rfl) rfl fun _ => rfl, hz⟩

theorem State.Inv.execSoftReset {s : State} (h : s.Inv) : AnswersInv (execSoftReset s) := by
  obtain ⟨hv, hm, -⟩ := h
  exact answersInv_next ⟨hv, hm, nofun, State.resultsWf_of_noOutput (.inl rfl) rfl fun _ => rfl, nofun⟩

theorem State.Inv.writeCmd {s : State} (h : s.Inv) (data : Word) : AnswersInv (s.writeCmd data) := by
  unfold State.writeCmd
  split
  next => exact h.execSoftReset
  next hw => exact answersInv_next (h.accept data hw)

/-! ### Writes to the windows -/

/-- A pixel at an aligned offset of PB lies inside PB, whose size is a multiple of 4 (R12, R65). -/
theorem writePixel_wf (size : Nat) (pb : Memory 8) (hpb : pb.wf size) (o : Nat) (data : Word) (ho : o < size)
    (halign : o % 4 = 0) (hsize : size % 4 = 0) : (writePixel pb o data).wf size :=
  Memory.writeFrom_wf size _ pb o hpb (by simp only [List.length_cons, List.length_nil]; omega)

theorem State.writeTarget_reg (data : Word) (s : State) (r : Reg) (hr : r ≠ .cmd) :
    s.writeTarget data (.reg r) = .next (s.writeReg data r) := by
  cases r with
  | cmd => exact absurd rfl hr
  | _ => rfl

theorem State.Inv.writeTarget {s : State} (h : s.Inv) (size : Nat) (addr data : Word) (t : Target)
    (ht : busTarget s.build size addr = some t) : AnswersInv (s.writeTarget data t) := by
  obtain ⟨⟨-, halign⟩, hdec⟩ := (busTarget_eq_some ..).1 ht
  have hbound := decodeAddr_bounds _ _ _ hdec
  have ⟨hv, ⟨hpb, hmb, hkb, hob⟩, hrest⟩ := h
  cases t with
  | reg r =>
    by_cases hr : r = .cmd
    · subst hr
      exact h.writeCmd data
    · rw [State.writeTarget_reg data s r hr]
      exact answersInv_next (h.writeReg data r)
  | pb o =>
    obtain ⟨ho, haddr⟩ := hbound
    exact answersInv_next ⟨hv, ⟨writePixel_wf _ _ hpb o data ho (by omega) hv.1, hmb, hkb, hob⟩, hrest⟩
  | mb u => exact answersInv_next ⟨hv, ⟨hpb, Memory.write_wf _ _ hmb u hbound _, hkb, hob⟩, hrest⟩
  | kb u => exact answersInv_next ⟨hv, ⟨hpb, hmb, Memory.write_wf _ _ hkb u hbound _, hob⟩, hrest⟩
  | ob u => exact answersInv_next h

/-! ### The host's turn -/

/-- A dropped write records HostHazard with HZD (R271). -/
theorem State.Inv.dropWrite {s : State} (h : s.Inv) : s.dropWrite.Inv := by
  obtain ⟨hv, hm, hf, hr, -⟩ := h
  exact ⟨hv, hm, hf, hr, fun _ => rfl⟩

theorem State.Inv.busWrite {s : State} (h : s.Inv) (size : Nat) (lanes : BitVec 4) (addr data : Word) :
    AnswersInv (s.busWrite size lanes addr data) := by
  unfold State.busWrite
  split
  next => exact answersInv_next h
  next t ht =>
    have htarget : busTarget s.build size addr = some t := (Option.ite_none_right_eq_some.1 ht).2
    split
    · have hdrop := h.dropWrite
      exact answersInv_next hdrop
    · exact State.Inv.writeTarget (s := s.answer .okay 0) h size addr data t htarget

theorem State.Inv.pollOnce {s : State} (h : s.Inv) (addr mask value : Word) (rest : List HostOp) :
    (s.pollOnce addr mask value rest).Inv := by
  unfold State.pollOnce
  split <;> exact h

theorem State.Inv.hostTurn {s : State} (h : s.Inv) : AnswersInv s.hostTurn := by
  unfold State.hostTurn
  split
  next => exact answersInv_next h
  next size lanes addr data rest _ => exact State.Inv.busWrite (s := { s with program := rest }) h size lanes addr data
  next => exact answersInv_next h
  next addr mask value rest _ => exact answersInv_next (h.pollOnce addr mask value rest)
  next => split <;> exact answersInv_next h

/-! ### The reset input and the step -/

theorem State.Inv.hardwareReset {s : State} (h : s.Inv) : s.hardwareReset.Inv := by
  obtain ⟨hv, -⟩ := h
  exact ⟨hv, ⟨Memory.nil_wf _, Memory.nil_wf _, Memory.nil_wf _, Memory.nil_wf _⟩, nofun,
    State.resultsWf_of_noOutput (.inl rfl) rfl fun _ => rfl, nofun⟩

/-- Using up an entry of the schedule is invisible to the invariant. -/
theorem State.Inv.step {s : State} (h : s.Inv) : AnswersInv (step s) := by
  have hnext : State.Inv { s with schedule := s.schedule.tail } := h
  cases hturn : s.turn with
  | engine => rw [step_of_engine s hturn]; exact hnext.engineTurn
  | host => rw [step_of_host s hturn]; exact hnext.hostTurn
  | rst => rw [step_of_rst s hturn]; exact answersInv_next hnext.hardwareReset

/-- Settles O43: by whose turn it is, each agent's turn keeping the invariant. -/
theorem stepKeepsInvariant : Obligations.StepKeepsInvariant :=
  fun _ _ h => h.step _

end Sys2Proof.Machine

/-! SUPPORT. What a command of the engine leaves unchanged, and what its completion does to `irq`. -/

namespace Sys2Proof.Machine

/-! ### Observations that a result keeps -/

/-- Every next state that a result answers agrees with `s` under the observation `f`. -/
def Keeps {α : Type} (f : State → α) (s : State) (r : Result) : Prop := ∀ t, r = .next t → f t = f s

/-- The observation `f` sees none of the writes that R48 gives the command `i`: every command writes the status fields
and ERR_INFO, EMBED and EMBED.K write PB and BITLEN, the output commands OB and OUT_LEN, the image commands CAPACITY. -/
structure Unseen {α : Type} (i : Instr) (f : State → α) : Prop where
  completion : ∀ (s : State) (e : BitVec 4) (info : Word),
    f { s with err := e, errInfo := info, busy := false, done := true } = f s
  image : i = .embed ∨ i = .embedK → ∀ (s : State) (pb : Memory 8) (bl : Word),
    f { s with pb := pb, bitLen := bl } = f s
  output : i = .extract ∨ i = .extractK ∨ i = .xorEncK ∨ i = .xorDecK →
    ∀ (s : State) (ob : Memory 16) (len : BitVec 24), f { s with ob := ob, outLen := len } = f s
  capacity : i = .embed ∨ i = .embedK ∨ i = .extract ∨ i = .extractK →
    ∀ (s : State) (c : Word), f { s with capacity := c } = f s

section
variable {α β : Type} {i : Instr} {f : State → α} {s : State}

theorem keeps_next {t : State} (h : f t = f s) : Keeps f s (.next t) := by
  rintro _ ⟨⟩
  exact h

theorem keeps_orFault (r : Except Fault β) (k : β → Result) (h : ∀ v, Keeps f s (k v)) :
    Keeps f s (orFault r k) := by
  intro t ht
  obtain ⟨v, -, hv⟩ := (orFault_eq_next ..).1 ht
  exact h v t hv

/-- CAPACITY is written first: what is kept from then on is kept from the command's start (R177). -/
theorem Unseen.of_withCapacity (h : Unseen i f) (hi : i = .embed ∨ i = .embedK ∨ i = .extract ∨ i = .extractK)
    {r : Result} (hr : Keeps f s.withCapacity r) : Keeps f s r :=
  fun t ht => (hr t ht).trans (h.capacity hi s _)

theorem Unseen.raise (h : Unseen i f) (s : State) (code : ErrCode) (info : Word) : Keeps f s (s.raise code info) :=
  keeps_next (h.completion s _ _)

theorem Unseen.returnOk (h : Unseen i f) (s : State) : Keeps f s s.returnOk :=
  keeps_next (h.completion s _ s.errInfo)

theorem Unseen.validated (h : Unseen i f) (checks : List Check) {body : Result} (hbody : Keeps f s body) :
    Keeps f s (s.validated checks body) := by
  rcases s.validated_cases checks body with ⟨c, -, -, hc⟩ | ⟨-, hc⟩ <;> rw [hc]
  · exact h.raise s _ _
  · exact hbody

theorem Unseen.emit (h : Unseen i f) (hi : i = .extract ∨ i = .extractK ∨ i = .xorEncK ∨ i = .xorDecK)
    (s : State) (t : Text) : Keeps f s (s.emit t) :=
  fun u hu => (h.returnOk _ u hu).trans (h.output hi s _ _)

theorem Unseen.embedPayload (h : Unseen i f) (hi : i = .embed ∨ i = .embedK) (p : Text) (s : State) :
    Keeps f s (embedPayload p s) := by
  rcases embedPayload_cases p s with ⟨-, he⟩ | ⟨pb, -, -, he⟩ | ⟨fault, -, he⟩ <;> rw [he]
  · exact fun t ht => (h.raise _ _ _ t ht).trans (h.image hi s s.pb _)
  · exact fun t ht => (h.returnOk _ t ht).trans (h.image hi s pb _)
  · exact nofun

end

/-- A command keeps every observation that sees none of its writes (R48). -/
theorem Unseen.exec {α : Type} {i : Instr} {f : State → α} (h : Unseen i f) (hi : i ≠ .softReset) (s : State) :
    Keeps f s (exec i s) := by
  cases i with
  | nop => exact h.returnOk s
  | embed =>
    exact h.validated _ <| keeps_orFault _ _ fun m => h.of_withCapacity (by simp) <| h.embedPayload (by simp) m _
  | embedK =>
    refine h.validated _ <| keeps_orFault _ _ fun m => keeps_orFault _ _ fun k => ?_
    cases xorEncrypt m k with
    | some p => exact h.of_withCapacity (by simp) <| h.embedPayload (by simp) p _
    | none => exact h.of_withCapacity (by simp) <| h.raise _ _ _
  | extract =>
    refine h.validated _ <| keeps_orFault _ _ fun bits => ?_
    cases findPayload bits with
    | some r => exact h.of_withCapacity (by simp) <| h.emit (by simp) _ r
    | none => exact h.of_withCapacity (by simp) <| h.raise _ _ _
  | extractK =>
    refine h.validated _ <| keeps_orFault _ _ fun bits => ?_
    cases findPayload bits with
    | none => exact h.of_withCapacity (by simp) <| h.raise _ _ _
    | some r =>
      refine keeps_orFault _ _ fun k => ?_
      cases xorDecrypt r k with
      | some m => exact h.of_withCapacity (by simp) <| h.emit (by simp) _ m
      | none => exact h.of_withCapacity (by simp) <| h.raise _ _ _
  | xorEncK =>
    refine h.validated _ <| keeps_orFault _ _ fun m => keeps_orFault _ _ fun k => ?_
    cases xorEncrypt m k with
    | some a => exact h.emit (by simp) s a
    | none => exact h.raise s _ _
  | xorDecK =>
    refine h.validated _ <| keeps_orFault _ _ fun a => keeps_orFault _ _ fun k => ?_
    cases xorDecrypt a k with
    | some m => exact h.emit (by simp) s m
    | none => exact h.raise s _ _
  | softReset => exact absurd rfl hi

/-! ### The frame of a command -/

/-- What every command but SOFT_RESET has in common: the fields it may write, BUSY cleared and DONE set (R48, R230). -/
theorem exec_frame (i : Instr) (s t : State) (hi : i ≠ .softReset) (h : exec i s = .next t) :
    t = { s with
          err := t.err, errInfo := t.errInfo, outLen := t.outLen, bitLen := t.bitLen, capacity := t.capacity,
          pb := t.pb, ob := t.ob, busy := false, done := true } := by
  rcases exec_outcome i hi s with ⟨f, hf⟩ | ⟨code, info, cap, bl, -, hn⟩ | ⟨cap, bl, pb, ob, len, hn⟩
  · simp [hf] at h
  · obtain rfl := Host.Outcome.next.inj (hn.symm.trans h)
    rfl
  · obtain rfl := Host.Outcome.next.inj (hn.symm.trans h)
    rfl

/-- Settles O38: the common frame, and an observation of each group of result fields for the commands that do not
write them. -/
theorem engineCommandFrame : Obligations.EngineCommandFrame := by
  intro i s t hi h
  refine ⟨exec_frame i s t hi h, fun hn => ?_, fun hn => ?_, fun hn => ?_⟩
  · have hunseen : Unseen i fun s => (s.pb, s.bitLen) :=
      { completion := fun _ _ _ => rfl, image := by simp [hn]
        output := fun _ _ _ _ => rfl, capacity := fun _ _ _ => rfl }
    exact Prod.ext_iff.1 (hunseen.exec hi s t h)
  · have hunseen : Unseen i fun s => (s.ob, s.outLen) :=
      { completion := fun _ _ _ => rfl, image := fun _ _ _ _ => rfl
        output := by rcases hn with rfl | rfl | rfl <;> simp, capacity := fun _ _ _ => rfl }
    exact Prod.ext_iff.1 (hunseen.exec hi s t h)
  · have hunseen : Unseen i State.capacity :=
      { completion := fun _ _ _ => rfl, image := fun _ _ _ _ => rfl
        output := fun _ _ _ _ => rfl, capacity := by rcases hn with rfl | rfl | rfl <;> simp }
    exact hunseen.exec hi s t h

/-! ### The interrupt output at completion -/

/-- A completion sets DONE and leaves CTRL.IE, so `irq` is CTRL.IE (R46). -/
theorem exec_completes (i : Instr) (s t : State) (hi : i ≠ .softReset) (h : exec i s = .next t) :
    t.done = true ∧ t.ie = s.ie := by
  rw [exec_frame i s t hi h]
  exact ⟨rfl, rfl⟩

theorem execIllegal_completes (w : Word) (s t : State) (h : execIllegal w s = .next t) :
    t.done = true ∧ t.ie = s.ie := by
  rw [execIllegal, State.raise_eq] at h
  cases h
  exact ⟨rfl, rfl⟩

/-- The engine's turn with a command in flight is a completion, of an illegal word too (R201, R230). -/
theorem State.engineTurn_completes (s t : State) (hb : s.busy = true) (hlatch : s.cmdLatch ≠ 0x0000000F#32)
    (h : s.engineTurn = .next t) : t.done = true ∧ t.ie = s.ie := by
  rw [State.engineTurn, if_pos hb] at h
  split at h
  next i hi => exact exec_completes i s t (fun hsoft => hlatch (eq_of_decode_softReset _ (hsoft ▸ hi))) h
  next => exact execIllegal_completes _ s t h

theorem State.irq_eq_ie {s : State} (h : s.done = true) : s.irq = s.ie := by
  simp [State.irq, h]

/-- Settles O40: DONE is set and CTRL.IE is kept by each completion, and SOFT_RESET clears both. -/
theorem completionDrivesIrq : Obligations.CompletionDrivesIrq := by
  refine ⟨fun i s t h => ⟨rfl, fun hi => ?_, ?_⟩, fun s t hturn hb hlatch h => ?_⟩
  · obtain ⟨hdone, hie⟩ := exec_completes i s t hi h
    rw [State.irq_eq_ie hdone, hie]
  · rintro rfl
    cases h
    rfl
  · rw [step_of_engine s hturn] at h
    obtain ⟨hdone, hie⟩ := State.engineTurn_completes { s with schedule := s.schedule.tail } t hb hlatch h
    exact ⟨hdone, hie, (State.irq_eq_ie hdone).trans hie⟩

end Sys2Proof.Machine

/-! SUPPORT. Bus accesses to the registers and to the OB window: what a write does and what a read answers. -/

namespace Sys2Proof.Machine

/-! ### The registers' offsets -/

/-- Every register lies at an aligned offset (R23). -/
theorem regAt_aligned (a : Nat) (r : Reg) (h : regAt a = some r) : a % 4 = 0 := by
  unfold regAt at h
  split at h <;> simp_all

/-- A full-width access to a register's offset leads to the register, whatever the build (R61). -/
theorem busTarget_of_regAt (b : Build) (addr : Word) (r : Reg) (h : regAt addr.toNat = some r) :
    busTarget b 4 addr = some (.reg r) :=
  (busTarget_eq_some ..).2 ⟨⟨rfl, regAt_aligned _ r h⟩, decodeAddr_of_regAt b addr r h⟩

/-! ### Writes -/

/-- The host's write to a register other than CMD, where it is not dropped: the register's own rule, and the answer
OKAY (R24, R270). -/
theorem step_hostWrite_reg (s : State) (addr data : Word) (rest : List HostOp) (r : Reg)
    (hnext : s.HostNext (.write 4 0xF#4 addr data) rest) (hr : regAt addr.toNat = some r) (hcmd : r ≠ .cmd)
    (hkeep : s.busy = false ∨ Target.inputOfEngine (.reg r) = false) :
    step s = .next (State.writeReg data
      { s with schedule := s.schedule.tail, program := rest, reply := some { resp := .okay, data := 0 } } r) := by
  obtain ⟨hturn, hprog⟩ := hnext
  have htarget := busTarget_of_regAt s.build addr r hr
  have hdrop : (s.busy && Target.inputOfEngine (.reg r)) = false := Bool.and_eq_false_iff.2 hkeep
  rw [step_of_host s hturn]
  simp only [State.hostTurn, hprog, State.busWrite, if_pos, htarget, hdrop]
  exact State.writeTarget_reg data _ r hcmd

/-- The offsets of the RO registers (R23). -/
def readOnlyOffsets : List Word :=
  [0x000#32, 0x020#32, 0x024#32, 0x028#32, 0x02C#32, 0x030#32, 0x034#32, 0x038#32, 0x03C#32, 0x040#32]

/-- A register at an RO offset ignores writes, and no write to it is dropped (R24, R270). -/
theorem regAt_readOnly (addr : Word) (h : addr ∈ readOnlyOffsets) :
    ∃ r, regAt addr.toNat = some r ∧ r ≠ .cmd ∧ Target.inputOfEngine (.reg r) = false ∧
      ∀ (data : Word) (s : State), s.writeReg data r = s := by
  simp only [readOnlyOffsets, List.mem_cons, List.not_mem_nil, or_false] at h
  rcases h with rfl | rfl | rfl | rfl | rfl | rfl | rfl | rfl | rfl | rfl <;>
    exact ⟨_, rfl, nofun, rfl, fun _ _ => rfl⟩

/-- Settles O49: each offset names its register, whose own write rule gives the clause. -/
theorem registerWritesFollowAccessTypes : Obligations.RegisterWritesFollowAccessTypes := by
  intro s addr data rest hnext
  refine ⟨?_, ?_, ?_, ?_, ?_, ?_, fun h => ?_⟩
  · rintro rfl; exact step_hostWrite_reg s _ data rest .status hnext rfl nofun (.inr rfl)
  · rintro rfl; exact step_hostWrite_reg s _ data rest .ctrl hnext rfl nofun (.inr rfl)
  · rintro hb rfl; exact step_hostWrite_reg s _ data rest .width hnext rfl nofun (.inl hb)
  · rintro hb rfl; exact step_hostWrite_reg s _ data rest .height hnext rfl nofun (.inl hb)
  · rintro hb rfl; exact step_hostWrite_reg s _ data rest .msgLen hnext rfl nofun (.inl hb)
  · rintro hb rfl; exact step_hostWrite_reg s _ data rest .keyLen hnext rfl nofun (.inl hb)
  · obtain ⟨r, hr, hcmd, hinput, hro⟩ := regAt_readOnly addr h
    rw [step_hostWrite_reg s addr data rest r hnext hr hcmd (.inr hinput), hro]

/-! ### Reads -/

/-- A full-width read of a target whose value is specified answers OKAY with that value (R64, R272). -/
theorem State.readReply_of_target (s : State) (addr : Word) (t : Target) (ht : busTarget s.build 4 addr = some t)
    (hspec : s.busy = false ∨ t.resultOfEngine = false) :
    s.readReply 4 addr = { resp := .okay, data := s.readTarget (Config.freeWord s.draws) t } := by
  have hdraw : (s.busy && t.resultOfEngine) = false := Bool.and_eq_false_iff.2 hspec
  simp [State.readReply, ht, hdraw]

/-- A read of a register while its value is specified answers that value (R23, R272). -/
theorem State.readReply_reg (s : State) (addr : Word) (r : Reg) (hr : regAt addr.toNat = some r)
    (hspec : s.busy = false ∨ Target.resultOfEngine (.reg r) = false) (v : Word) (hv : s.readReg r = v) :
    s.readReply 4 addr = { resp := .okay, data := v } :=
  hv ▸ s.readReply_of_target addr (.reg r) (busTarget_of_regAt s.build addr r hr) hspec

/-- CTRL as the host reads it: IE at bit 0, the reserved bits 0 (R34). -/
theorem State.readReg_ctrl (s : State) : s.readReg .ctrl = BitVec.ofNat 32 s.ie.toNat := by
  unfold State.readReg
  cases s.ie <;> rfl

/-- Settles O50: each offset names its register, and what the register reads as is its line of R23's map. -/
theorem registerReadsFollowTheMap : Obligations.RegisterReadsFollowTheMap := by
  intro s
  simp only [List.forall_mem_cons, List.not_mem_nil, false_implies, implies_true, and_true]
  refine ⟨⟨?_, ?_, ?_, ?_, ?_, ?_, ?_, ?_, ?_, ?_, ?_, ?_, ?_⟩, fun hb => ⟨?_, ?_, ?_, ?_⟩⟩
  · exact s.readReply_reg _ .id rfl (.inr rfl) _ rfl
  · exact s.readReply_reg _ .cmd rfl (.inr rfl) _ rfl
  · exact s.readReply_reg _ .status rfl (.inr rfl) _ s.statusWord_eq
  · exact s.readReply_reg _ .ctrl rfl (.inr rfl) _ s.readReg_ctrl
  · exact s.readReply_reg _ .width rfl (.inr rfl) _ (BitVec.ofNat_toNat 32 s.width).symm
  · exact s.readReply_reg _ .height rfl (.inr rfl) _ (BitVec.ofNat_toNat 32 s.height).symm
  · exact s.readReply_reg _ .msgLen rfl (.inr rfl) _ (BitVec.ofNat_toNat 32 s.msgLen).symm
  · exact s.readReply_reg _ .keyLen rfl (.inr rfl) _ (BitVec.ofNat_toNat 32 s.keyLen).symm
  · exact s.readReply_reg _ .cfgPbBytes rfl (.inr rfl) _ rfl
  · exact s.readReply_reg _ .cfgMbUnits rfl (.inr rfl) _ rfl
  · exact s.readReply_reg _ .cfgKbUnits rfl (.inr rfl) _ rfl
  · exact s.readReply_reg _ .cfgObUnits rfl (.inr rfl) _ rfl
  · exact s.readReply_reg _ .sentinel rfl (.inr rfl) _ rfl
  · exact s.readReply_reg _ .outLen rfl (.inl hb) _ (BitVec.ofNat_toNat 32 s.outLen).symm
  · exact s.readReply_reg _ .errInfo rfl (.inl hb) _ rfl
  · exact s.readReply_reg _ .bitLen rfl (.inl hb) _ rfl
  · exact s.readReply_reg _ .capacity rfl (.inl hb) _ rfl

/-! ### The OB window -/

/-- The offset of unit `u` of OB leads to it: the window does not wrap, and no other window reaches it (R12, R61). -/
theorem busTarget_ob (b : Build) (hb : b.Valid) (u : Nat) (hu : u < b.obUnits) :
    busTarget b 4 (BitVec.ofNat 32 (0x04000000 + 4 * u)) = some (.ob u) := by
  obtain ⟨-, -, hpb, -, hmb, -, hkb, -, -, hob⟩ := hb
  have haddr : (BitVec.ofNat 32 (0x04000000 + 4 * u)).toNat = 0x04000000 + 4 * u := by
    rw [BitVec.toNat_ofNat]; omega
  rw [busTarget_eq_some, decodeAddr, haddr]
  refine ⟨⟨rfl, by omega⟩, ?_⟩
  rw [if_neg (by omega), if_neg (by omega), if_neg (by omega), if_neg (by omega), if_pos (by omega)]
  congr 2
  omega

/-- A unit of MB, KB or OB that holds a value reads as it (R66). -/
theorem unitWord_of_written (m : Memory 16) (draw : Word) (u : Nat) (v : CodeUnit) (h : m.read? u = some v) :
    unitWord m draw u = BitVec.ofNat 32 v.toNat := by
  rw [unitWord, h, Option.getD_some, BitVec.ofNat_toNat]

/-- A unit without a value reads as the low half of the draw (R66, R261; log 9). -/
theorem unitWord_of_unwritten (m : Memory 16) (draw : Word) (u : Nat) (h : m.read? u = none) :
    unitWord m draw u = BitVec.ofNat 32 (draw.toNat % 2 ^ 16) := by
  rw [unitWord, h, Option.getD_none, ← BitVec.toNat_setWidth, BitVec.ofNat_toNat]

/-- While BUSY = 0 a read of OB answers the unit there below OUT_LEN, and one without a value from OUT_LEN on (R44). -/
theorem State.readReply_ob (s : State) (u : Nat) (hv : s.build.Valid) (hb : s.busy = false) (hu : u < s.build.obUnits) :
    s.readReply 4 (BitVec.ofNat 32 (0x04000000 + 4 * u)) =
      { resp := .okay
        data := unitWord (if u < s.outLen.toNat then s.ob else []) (Config.freeWord s.draws) u } :=
  s.readReply_of_target _ (.ob u) (busTarget_ob s.build hv u hu) (.inl hb)

/-- Settles O55: by the side of OUT_LEN on which the unit lies. -/
theorem outputReadsUpToItsLength : Obligations.OutputReadsUpToItsLength := by
  intro s u hv hb hu
  rw [s.readReply_ob u hv hb hu]
  refine ⟨fun v hlt hread => ?_, fun hge => ?_⟩
  · rw [if_pos hlt, unitWord_of_written s.ob _ u v hread]
  · rw [if_neg (by omega), unitWord_of_unwritten [] _ u rfl]

end Sys2Proof.Machine

/-! SUPPORT. The address map as an equivalence, and host accesses to the PB, MB and KB windows: where an offset leads,
what a write leaves there and what a read answers. -/

namespace Sys2Proof.Machine

/-! ### The address map -/

/-- The registers' offsets are the multiples of 4 from 0 on, in the order of R23. -/
theorem regAt_eq_some_iff (a : Nat) (r : Reg) :
    regAt a = some r ↔ (a, r) ∈ (List.range 17).zipWith (fun n r => (4 * n, r)) allRegs := by
  constructor
  · intro h
    unfold regAt at h
    split at h <;> cases h <;> decide
  · have hall : ∀ p ∈ (List.range 17).zipWith (fun n r => (4 * n, r)) allRegs, regAt p.1 = some p.2 := by decide
    exact hall (a, r)

/-- The target's line of R61: where in a block of build `b` the offset `a` leads to it. -/
def Target.MappedAt (b : Build) (a : Nat) : Target → Prop
  | .reg r => regAt a = some r
  | .pb o => a = 0x01000000 + o ∧ o < b.pbBytes
  | .mb u => 0x02000000 ≤ a ∧ u = (a - 0x02000000) / 4 ∧ u < b.mbUnits
  | .kb u => 0x03000000 ≤ a ∧ u = (a - 0x03000000) / 4 ∧ u < b.kbUnits
  | .ob u => 0x04000000 ≤ a ∧ u = (a - 0x04000000) / 4 ∧ u < b.obUnits

/-- An offset leads nowhere but to a target whose line it meets, whatever the build. -/
theorem mappedAt_of_decodeAddr (b : Build) (addr : Word) (t : Target) (h : decodeAddr b addr = some t) :
    t.MappedAt b addr.toNat := by
  simp only [decodeAddr] at h
  split at h
  · obtain ⟨r, hr, rfl⟩ := Option.map_eq_some_iff.1 h
    exact hr
  · split_ifs at h <;> cases h
    · exact ⟨by omega, by omega⟩
    all_goals exact ⟨by omega, rfl, by omega⟩

/-- In a valid build the lines of R61 exclude one another, so that the first match is the only one: each window ends
where the next one begins, at the latest (R12). -/
theorem decodeAddr_eq_some_iff (b : Build) (hb : b.Valid) (addr : Word) (t : Target) :
    decodeAddr b addr = some t ↔ t.MappedAt b addr.toNat := by
  refine ⟨mappedAt_of_decodeAddr b addr t, fun h => ?_⟩
  obtain ⟨-, -, hpb, -, hmb, -, hkb, -⟩ := hb
  cases t with
  | reg r => exact decodeAddr_of_regAt b addr r h
  | pb o =>
    obtain ⟨ha, ho⟩ := h
    rw [decodeAddr, if_neg (by omega), if_pos (by omega), ha, Nat.add_sub_cancel_left]
  | mb u =>
    obtain ⟨ha, rfl, hu⟩ := h
    rw [decodeAddr, if_neg (by omega), if_neg (by omega), if_pos (by omega)]
  | kb u =>
    obtain ⟨ha, rfl, hu⟩ := h
    rw [decodeAddr, if_neg (by omega), if_neg (by omega), if_neg (by omega), if_pos (by omega)]
  | ob u =>
    obtain ⟨ha, rfl, hu⟩ := h
    rw [decodeAddr, if_neg (by omega), if_neg (by omega), if_neg (by omega), if_neg (by omega), if_pos (by omega)]

/-- Settles O46: each clause is the line of R61 for one kind of target. -/
theorem addressMapOfTheBlock : Obligations.AddressMapOfTheBlock := fun b addr hb =>
  ⟨fun r => (decodeAddr_eq_some_iff b hb addr (.reg r)).trans (regAt_eq_some_iff addr.toNat r),
    fun o => decodeAddr_eq_some_iff b hb addr (.pb o), fun u => decodeAddr_eq_some_iff b hb addr (.mb u),
    fun u => decodeAddr_eq_some_iff b hb addr (.kb u), fun u => decodeAddr_eq_some_iff b hb addr (.ob u)⟩

/-- A full-width access to an aligned offset leads to the target whose line it meets (R61 to R63). -/
theorem busTarget_of_mappedAt (b : Build) (hb : b.Valid) (a : Nat) (t : Target) (ha : a < 2 ^ 32) (halign : a % 4 = 0)
    (h : t.MappedAt b a) : busTarget b 4 (BitVec.ofNat 32 a) = some t := by
  rw [busTarget_eq_some, decodeAddr_eq_some_iff b hb, BitVec.toNat_ofNat, Nat.mod_eq_of_lt ha]
  exact ⟨⟨rfl, halign⟩, h⟩

/-- The offset of a pixel leads to it (R65). -/
theorem busTarget_pb (b : Build) (hb : b.Valid) (o : Nat) (halign : o % 4 = 0) (ho : o < b.pbBytes) :
    busTarget b 4 (BitVec.ofNat 32 (0x01000000 + o)) = some (.pb o) := by
  have ⟨_, _, hpb, _⟩ := hb
  exact busTarget_of_mappedAt b hb _ _ (by omega) (by omega) ⟨rfl, ho⟩

/-- The offset of a unit of MB leads to it (R66). -/
theorem busTarget_mb (b : Build) (hb : b.Valid) (u : Nat) (hu : u < b.mbUnits) :
    busTarget b 4 (BitVec.ofNat 32 (0x02000000 + 4 * u)) = some (.mb u) := by
  have ⟨_, _, _, _, hmb, _⟩ := hb
  exact busTarget_of_mappedAt b hb _ _ (by omega) (by omega) ⟨by omega, by omega, hu⟩

/-- The offset of a unit of KB leads to it (R66). -/
theorem busTarget_kb (b : Build) (hb : b.Valid) (u : Nat) (hu : u < b.kbUnits) :
    busTarget b 4 (BitVec.ofNat 32 (0x03000000 + 4 * u)) = some (.kb u) := by
  have ⟨_, _, _, _, _, _, hkb, _⟩ := hb
  exact busTarget_of_mappedAt b hb _ _ (by omega) (by omega) ⟨by omega, by omega, hu⟩

/-! ### One bus access of the host -/

/-- The host's turn at a read, of any size: the answer, the draw and the operation used up (R72). -/
theorem step_hostRead (s : State) (size : Nat) (addr : Word) (rest : List HostOp)
    (hnext : s.HostNext (.read size addr) rest) :
    step s = .next
      { s with
        schedule := s.schedule.tail, program := rest, reply := some (s.readReply size addr), draws := s.draws + 1 } := by
  obtain ⟨hturn, hprog⟩ := hnext
  rw [step_of_host s hturn]
  simp only [State.hostTurn, hprog]
  rfl

/-- The host's turn at a write is that write, with the operation used up (R62). -/
theorem step_hostWrite (s : State) (size : Nat) (lanes : BitVec 4) (addr data : Word) (rest : List HostOp)
    (hnext : s.HostNext (.write size lanes addr data) rest) :
    step s = State.busWrite size lanes addr data { s with schedule := s.schedule.tail, program := rest } := by
  obtain ⟨hturn, hprog⟩ := hnext
  rw [step_of_host s hturn]
  simp only [State.hostTurn, hprog]

/-- The host's write to a mapped target, where it is not dropped: the target's own rule, and the answer OKAY (R64,
R270). -/
theorem step_hostWrite_target (s : State) (addr data : Word) (rest : List HostOp) (t : Target)
    (hnext : s.HostNext (.write 4 0xF#4 addr data) rest) (ht : busTarget s.build 4 addr = some t)
    (hkeep : s.busy = false ∨ t.inputOfEngine = false) :
    step s = State.writeTarget data
      { s with schedule := s.schedule.tail, program := rest, reply := some { resp := .okay, data := 0 } } t := by
  have hdrop : (s.busy && t.inputOfEngine) = false := Bool.and_eq_false_iff.2 hkeep
  rw [step_hostWrite s 4 0xF#4 addr data rest hnext]
  simp only [State.busWrite, if_pos, ht, hdrop]
  rfl

/-- Settles O52: the host's turn at a full-width read. -/
theorem hostReadChangesNothing : Obligations.HostReadChangesNothing :=
  fun s addr rest hnext => step_hostRead s 4 addr rest hnext

/-! ### Bus errors -/

/-- The accesses without a target: of another size, misaligned or unmapped (R62, R63, R64). -/
theorem busTarget_eq_none_iff (b : Build) (size : Nat) (addr : Word) :
    busTarget b size addr = none ↔ size ≠ 4 ∨ addr.toNat % 4 ≠ 0 ∨ decodeAddr b addr = none := by
  rw [busTarget, ite_eq_right_iff, and_imp]
  tauto

/-- A write with a lane disabled or without a target is answered SLVERR, and that is all it does (R62, R64). -/
theorem State.busWrite_of_busError (s : State) (size : Nat) (lanes : BitVec 4) (addr data : Word)
    (h : lanes ≠ 0xF#4 ∨ busTarget s.build size addr = none) :
    s.busWrite size lanes addr data = .next (s.answer .slverr 0) := by
  have hnone : (if lanes = 0xF#4 then busTarget s.build size addr else none) = none := by
    rcases h with hlanes | htarget
    · exact if_neg hlanes
    · rw [htarget, ite_self]
  simp only [State.busWrite, hnone]

theorem State.readReply_of_busError (s : State) (size : Nat) (addr : Word) (h : busTarget s.build size addr = none) :
    s.readReply size addr = { resp := .slverr, data := 0 } := by
  simp only [State.readReply, h]

/-- Settles O47: each listed fault leaves the access without a target or a lane disabled. -/
theorem busErrorChangesNothing : Obligations.BusErrorChangesNothing := by
  intro s size lanes addr data rest
  refine ⟨fun hnext herr => ?_, fun hnext herr => ?_⟩
  · have hbad : lanes ≠ 0xF#4 ∨ busTarget s.build size addr = none := by
      rw [busTarget_eq_none_iff]
      tauto
    rw [step_hostWrite s size lanes addr data rest hnext]
    exact State.busWrite_of_busError _ size lanes addr data hbad
  · rw [step_hostRead s size addr rest hnext, s.readReply_of_busError size addr ((busTarget_eq_none_iff ..).2 herr)]

/-! ### The PB window -/

/-- The four bytes of a pixel after its write, the low byte of the word at the lowest index (R65). -/
theorem read?_writePixel (pb : Memory 8) (hpb : (pb.map Prod.fst).Pairwise (· < ·)) (o : Nat) (data : Word) (a : Nat) :
    (writePixel pb o data).read? a =
      if o ≤ a ∧ a < o + 4 then some (data.extractLsb' (8 * (a - o)) 8) else pb.read? a := by
  rw [writePixel, Memory.read?_writeFrom _ pb o hpb]
  refine ite_congr rfl (fun hin => ?_) fun _ => rfl
  obtain ⟨d, rfl⟩ := Nat.exists_eq_add_of_le hin.1
  have hd : d < 4 := by simpa using hin.2
  rw [Nat.add_sub_cancel_left]
  interval_cases d <;> rfl

theorem toNat_append_eq_add {v w : Nat} (x : BitVec v) (y : BitVec w) :
    (x ++ y).toNat = 2 ^ w * x.toNat + y.toNat := by
  rw [BitVec.toNat_append, ← Nat.shiftLeft_add_eq_or_of_lt y.isLt, Nat.shiftLeft_eq, Nat.mul_comm]

/-- A word of four bytes, the low one last, as a sum. -/
theorem bytesWord_eq_ofNat (b0 b1 b2 b3 : Byte) :
    (b3 ++ (b2 ++ (b1 ++ b0)) : Word) =
      BitVec.ofNat 32 (b0.toNat + 2 ^ 8 * b1.toNat + 2 ^ 16 * b2.toNat + 2 ^ 24 * b3.toNat) := by
  apply BitVec.eq_of_toNat_eq
  rw [toNat_append_eq_add, toNat_append_eq_add, toNat_append_eq_add, BitVec.toNat_ofNat]
  omega

/-- A byte lane of a word of four bytes is the byte there. -/
theorem extractLsb'_bytesWord (byte : Nat → Byte) (lane : Nat) (h : lane < 4) :
    (byte 3 ++ (byte 2 ++ (byte 1 ++ byte 0)) : Word).extractLsb' (8 * lane) 8 = byte lane := by
  apply BitVec.eq_of_toNat_eq
  rw [bytesWord_eq_ofNat, BitVec.extractLsb'_toNat, BitVec.toNat_ofNat, Nat.shiftRight_eq_div_pow]
  interval_cases lane <;> omega

/-- While BUSY = 0 a read of PB answers the four bytes of the pixel, lane by lane (R65). -/
theorem State.readReply_pb (s : State) (o : Nat) (hv : s.build.Valid) (hb : s.busy = false) (halign : o % 4 = 0)
    (ho : o < s.build.pbBytes) :
    s.readReply 4 (BitVec.ofNat 32 (0x01000000 + o)) =
      { resp := .okay, data := s.readTarget (Config.freeWord s.draws) (.pb o) } :=
  s.readReply_of_target _ (.pb o) (busTarget_pb s.build hv o halign ho) (.inl hb)

/-- A byte that holds a value reads as it (R65). -/
theorem State.pbByte_of_written (s : State) (draw : Word) (o lane : Nat) (v : Byte)
    (h : s.pb.read? (o + lane) = some v) : s.pbByte draw o lane = v := by
  rw [State.pbByte, h, Option.getD_some]

/-- A byte without a value reads as its lane of the draw (R65, R261; log 9). -/
theorem State.pbByte_of_unwritten (s : State) (draw : Word) (o lane : Nat) (h : s.pb.read? (o + lane) = none) :
    s.pbByte draw o lane = draw.extractLsb' (8 * lane) 8 := by
  rw [State.pbByte, h, Option.getD_none]

/-- Settles O53: the write by the law of a pixel's write, the read byte by byte. -/
theorem pixelWindowIsLittleEndian : Obligations.PixelWindowIsLittleEndian := by
  rintro s o hv ⟨⟨hrising, -⟩, -⟩ hb halign ho
  refine ⟨fun data rest hnext => ⟨writePixel s.pb o data, ?_, read?_writePixel s.pb hrising o data⟩,
    fun b0 b1 b2 b3 h0 h1 h2 h3 => ?_⟩
  · exact step_hostWrite_target s _ data rest (.pb o) hnext (busTarget_pb s.build hv o halign ho) (.inl hb)
  · rw [s.readReply_pb o hv hb halign ho, State.readTarget, s.pbByte_of_written _ o 0 b0 h0,
      s.pbByte_of_written _ o 1 b1 h1, s.pbByte_of_written _ o 2 b2 h2, s.pbByte_of_written _ o 3 b3 h3,
      bytesWord_eq_ofNat]

/-! ### The MB and KB windows -/

/-- A read of MB answers the unit there, whether or not BUSY is set (R66, R272). -/
theorem State.readReply_mb (s : State) (u : Nat) (hv : s.build.Valid) (hu : u < s.build.mbUnits) :
    s.readReply 4 (BitVec.ofNat 32 (0x02000000 + 4 * u)) =
      { resp := .okay, data := unitWord s.mb (Config.freeWord s.draws) u } :=
  s.readReply_of_target _ (.mb u) (busTarget_mb s.build hv u hu) (.inr rfl)

/-- A read of KB answers the unit there, whether or not BUSY is set (R66, R272). -/
theorem State.readReply_kb (s : State) (u : Nat) (hv : s.build.Valid) (hu : u < s.build.kbUnits) :
    s.readReply 4 (BitVec.ofNat 32 (0x03000000 + 4 * u)) =
      { resp := .okay, data := unitWord s.kb (Config.freeWord s.draws) u } :=
  s.readReply_of_target _ (.kb u) (busTarget_kb s.build hv u hu) (.inr rfl)

/-- A word written to a unit reads back as its low half (R66). -/
theorem unitWord_write (m : Memory 16) (hm : (m.map Prod.fst).Pairwise (· < ·)) (data draw : Word) (u : Nat) :
    unitWord (m.write u (data.setWidth 16)) draw u = BitVec.ofNat 32 (data.toNat % 2 ^ 16) := by
  have hread : (m.write u (data.setWidth 16)).read? u = some (data.setWidth 16) := by
    rw [Memory.read?_write m hm, if_pos rfl]
  rw [unitWord_of_written _ draw u _ hread, BitVec.toNat_setWidth]

/-- Settles O54: each window by its own write rule, and the read back by the law of a unit's write. -/
theorem unitWritesToTheTextWindows : Obligations.UnitWritesToTheTextWindows := by
  rintro s u data rest hv ⟨-, ⟨hmb, -⟩, ⟨hkb, -⟩, -⟩
  refine ⟨fun hb hu hnext => ⟨s.mb.write u (data.setWidth 16), ?_, Memory.read?_write s.mb hmb u _, ?_⟩,
    fun hb hu hnext => ⟨s.kb.write u (data.setWidth 16), ?_, Memory.read?_write s.kb hkb u _, ?_⟩, fun hu hnext => ?_⟩
  · exact step_hostWrite_target s _ data rest (.mb u) hnext (busTarget_mb s.build hv u hu) (.inl hb)
  · rw [State.readReply_mb { s with mb := s.mb.write u (data.setWidth 16) } u hv hu, unitWord_write s.mb hmb]
  · exact step_hostWrite_target s _ data rest (.kb u) hnext (busTarget_kb s.build hv u hu) (.inl hb)
  · rw [State.readReply_kb { s with kb := s.kb.write u (data.setWidth 16) } u hv hu, unitWord_write s.kb hkb]
  · exact step_hostWrite_target s _ data rest (.ob u) hnext (busTarget_ob s.build hv u hu) (.inr rfl)

/-! ### Unwritten elements -/

/-- Settles O59: by whether each element is written. -/
theorem unwrittenElementsReadAsDraws : Obligations.UnwrittenElementsReadAsDraws := by
  intro s hv hb
  refine ⟨fun o halign ho => ⟨_, s.readReply_pb o hv hb halign ho, fun lane hlane => ?_⟩,
    fun u hu => ?_, fun u hu => ?_⟩
  · rw [State.readTarget, extractLsb'_bytesWord (s.pbByte (Config.freeWord s.draws) o) lane hlane]
    split
    next b hread => exact s.pbByte_of_written _ o lane b hread
    next hread => exact s.pbByte_of_unwritten _ o lane hread
  · rw [s.readReply_mb u hv hu]
    split
    next c hread => rw [unitWord_of_written s.mb _ u c hread]
    next hread => rw [unitWord_of_unwritten s.mb _ u hread]
  · rw [s.readReply_kb u hv hu]
    split
    next c hread => rw [unitWord_of_written s.kb _ u c hread]
    next hread => rw [unitWord_of_unwritten s.kb _ u hread]

end Sys2Proof.Machine

/-! SUPPORT. What a turn of the host can change while a command is in flight. -/

namespace Sys2Proof.Machine

/-- The frame of the host's turn over a command in flight: besides the W1C bits of STATUS, CTRL, the hazard record and
the host's own fields nothing differs, DONE is not set and the record of HostHazard is not cleared (R75, R270, R271). -/
def HostFrame (s t : State) : Prop :=
  t = { s with
        done := t.done, hzd := t.hzd, ie := t.ie, hostHazard := t.hostHazard, program := t.program, reply := t.reply,
        draws := t.draws } ∧
  (t.done = true → s.done = true) ∧ (s.hostHazard = true → t.hostHazard = true)

theorem hostFrame_refl (s : State) : HostFrame s s := ⟨rfl, id, id⟩

/-- The registers left to the host while BUSY = 1 are STATUS, CTRL and the RO registers, which ignore the write (R24
to R26). -/
theorem hostFrame_writeReg (s : State) (data : Word) (r : Reg) (hr : Target.inputOfEngine (.reg r) = false) :
    HostFrame s (s.writeReg data r) := by
  cases r with
  | status => exact ⟨rfl, fun hdone => (Bool.and_eq_true_iff.1 hdone).1, id⟩
  | cmd | width | height | msgLen | keyLen => cases hr
  | _ => exact ⟨rfl, id, id⟩

theorem hostFrame_writeTarget (s t : State) (data : Word) (target : Target) (hinput : target.inputOfEngine = false)
    (h : s.writeTarget data target = .next t) : HostFrame s t := by
  cases target with
  | reg r =>
    have hcmd : r ≠ .cmd := by rintro rfl; cases hinput
    rw [State.writeTarget_reg data s r hcmd] at h
    cases h
    exact hostFrame_writeReg s data r hinput
  | ob u =>
    cases h
    exact hostFrame_refl s
  | pb _ | mb _ | kb _ => cases hinput

/-- While BUSY = 1 a write is a bus error, or dropped, or goes to a target that the engine does not read. -/
theorem hostFrame_busWrite (s t : State) (size : Nat) (lanes : BitVec 4) (addr data : Word) (hb : s.busy = true)
    (h : s.busWrite size lanes addr data = .next t) : HostFrame s t := by
  unfold State.busWrite at h
  split at h
  next =>
    cases h
    exact ⟨rfl, id, id⟩
  next target _ =>
    rw [hb, Bool.true_and] at h
    split at h
    next =>
      cases h
      exact ⟨rfl, id, fun _ => rfl⟩
    next hinput =>
      exact hostFrame_writeTarget (s.answer .okay 0) t data target (Bool.eq_false_iff.2 hinput) h

/-- A POLL's read changes nothing but the answer, the draws and the program (R72, R101). -/
theorem hostFrame_pollOnce (s : State) (addr mask value : Word) (rest : List HostOp) :
    HostFrame s (s.pollOnce addr mask value rest) := by
  unfold State.pollOnce
  split <;> exact ⟨rfl, id, id⟩

/-- The host's next operation, whichever it is, keeps the frame. -/
theorem hostFrame_hostTurn (s t : State) (hb : s.busy = true) (h : s.hostTurn = .next t) : HostFrame s t := by
  unfold State.hostTurn at h
  split at h
  next =>
    cases h
    exact hostFrame_refl s
  next size lanes addr data rest _ =>
    exact hostFrame_busWrite { s with program := rest } t size lanes addr data hb h
  next =>
    cases h
    exact ⟨rfl, id, id⟩
  next addr mask value rest _ =>
    cases h
    exact hostFrame_pollOnce s addr mask value rest
  next =>
    cases h
    split <;> exact ⟨rfl, id, id⟩

/-- Settles O21: the frame of the host's turn, over the state with its entry of the schedule used up. -/
theorem hostTurnLeavesCommandInFlight : Obligations.HostTurnLeavesCommandInFlight := by
  intro s t hturn hb h
  rw [step_of_host s hturn] at h
  exact hostFrame_hostTurn { s with schedule := s.schedule.tail } t hb h

end Sys2Proof.Machine

/-! SUPPORT. Decoding as the inverse of encoding: a word's fields as numbers, the line of R94 that an illegal word meets
first, and the opcode map. -/

namespace Sys2Proof

/-! ### A word and its fields -/

theorem packFields_commandFields (w : Word) : packFields (commandFields w) = w := by
  apply BitVec.eq_of_getLsbD_eq
  intro k hk
  simp only [packFields, commandFields, BitVec.getLsbD_append, BitVec.getLsbD_extractLsb', BitVec.getLsbD_ofBool]
  rcases Nat.lt_trichotomy k 4 with hop | rfl | hrsv
  · simp [hop, show k < 5 by omega]
  · simp
  · simp [show ¬ k < 5 by omega, show k - 5 < 27 by omega, show 5 + (k - 5) = k by omega]

/-- RSV as a number (R91). -/
@[simp] theorem commandFields_rsv_toNat (w : Word) : (commandFields w).rsv.toNat = w.toNat / 32 := by
  have hw := w.isLt
  simp only [commandFields, BitVec.extractLsb'_toNat, Nat.shiftRight_eq_div_pow]
  omega

/-- OP as a number (R91). -/
@[simp] theorem commandFields_op_toNat (w : Word) : (commandFields w).op.toNat = w.toNat % 16 := by
  simp [commandFields]

/-- K as a number (R91). -/
@[simp] theorem commandFields_key (w : Word) : (commandFields w).key = decide (w.toNat / 16 % 2 = 1) := by
  simp [commandFields, BitVec.getLsbD, Nat.testBit_eq_decide_div_mod_eq]

/-! ### The lines of R94 -/

/-- The word numbered `n` meets this line of R94 and none that R94 lists before it (log 17). -/
def Illegal.FirstMetAt (n : Nat) : Illegal → Prop
  | .reservedBits => n / 32 ≠ 0
  | .unassignedOp => n / 32 = 0 ∧ 5 ≤ n % 16 ∧ n % 16 ≤ 14
  | .keyOnControl => n / 32 = 0 ∧ (n % 16 = 0 ∨ n % 16 = 15) ∧ n / 16 % 2 = 1
  | .keyMissing => n / 32 = 0 ∧ (n % 16 = 3 ∨ n % 16 = 4) ∧ n / 16 % 2 = 0

/-- A line is the one reported when its test succeeds and the tests before it fail. -/
theorem commandFields_problem_eq_some_iff (w : Word) (e : Illegal) :
    (commandFields w).problem = some e ↔ e.FirstMetAt w.toNat := by
  have hrsv : (commandFields w).rsv = 0 ↔ w.toNat / 32 = 0 := by
    rw [← BitVec.toNat_inj, commandFields_rsv_toNat]
    rfl
  have hop (c : BitVec 4) : (commandFields w).op = c ↔ w.toNat % 16 = c.toNat := by
    rw [← BitVec.toNat_inj, commandFields_op_toNat]
  simp only [CommandFields.problem, ne_eq, hrsv, hop, commandFields_op_toNat, commandFields_key, ite_eq_iff]
  cases e <;> simp [Illegal.FirstMetAt] <;> omega

/-! ### The opcode map -/

/-- R92's opcode map: each word with its command. -/
def opcodeMap : List (Word × Instr) :=
  [(0x00000000#32, .nop), (0x00000001#32, .embed), (0x00000011#32, .embedK), (0x00000002#32, .extract),
   (0x00000012#32, .extractK), (0x00000013#32, .xorEncK), (0x00000014#32, .xorDecK), (0x0000000F#32, .softReset)]

theorem mem_opcodeMap_iff (w : Word) (i : Instr) : (w, i) ∈ opcodeMap ↔ encode i = w := by
  have hrows : ∀ p ∈ opcodeMap, encode p.2 = p.1 := by decide
  constructor
  · exact hrows (w, i)
  · rintro rfl
    cases i <;> decide

/-- The OP and K columns of the opcode map are all the fields that meet no line of R94. -/
theorem exists_fields_of_problem_eq_none (f : CommandFields) (h : f.problem = none) : ∃ i : Instr, i.fields = f := by
  have hcolumns : ∀ (key : Bool) (op : BitVec 4), (CommandFields.mk 0 key op).problem = none →
      ∃ p ∈ opcodeMap, p.2.fields = ⟨0, key, op⟩ := by decide
  obtain ⟨rsv, key, op⟩ := f
  obtain rfl : rsv = 0 := by
    by_contra hrsv
    rw [CommandFields.problem, if_pos hrsv] at h
    cases h
  obtain ⟨p, -, hp⟩ := hcolumns key op h
  exact ⟨p.2, hp⟩

/-! ### Decoding and encoding -/

/-- Packing undoes the split into fields, so a word without a line of R94 is a command's word. -/
theorem exists_encode_of_problem_eq_none (w : Word) (h : (commandFields w).problem = none) : ∃ i, encode i = w := by
  obtain ⟨i, hi⟩ := exists_fields_of_problem_eq_none _ h
  exact ⟨i, by rw [encode, hi, packFields_commandFields]⟩

/-- A command's word meets no line of R94. -/
theorem commandFields_encode_problem (i : Instr) : (commandFields (encode i)).problem = none := by
  cases i <;> decide

@[simp] theorem decode_encode (i : Instr) : decode (encode i) = .ok i := by
  cases i <;> rfl

theorem encode_of_decode_eq_ok (w : Word) (i : Instr) (h : decode w = .ok i) : encode i = w := by
  unfold decode at h
  split_ifs at h <;> cases h <;> subst w <;> rfl

/-- Decoding is the exact match against the encodings (R93). -/
theorem decode_eq_ok_iff (w : Word) (i : Instr) : decode w = .ok i ↔ encode i = w :=
  ⟨encode_of_decode_eq_ok w i, fun h => h ▸ decode_encode i⟩

/-- A word that no command encodes is rejected with what its fields meet (R94). -/
theorem decode_of_forall_encode_ne (w : Word) (h : ∀ i, encode i ≠ w) :
    decode w = .error ((commandFields w).problem.getD .unassignedOp) := by
  have hne : ∀ p ∈ opcodeMap, w ≠ p.1 := fun p hp hw => h p.2 ((mem_opcodeMap_iff w p.2).1 (hw ▸ hp))
  simp only [opcodeMap, List.forall_mem_cons] at hne
  simp [decode, hne]

/-- A word is rejected exactly for the line of R94 that its fields meet; the decoder's default is never used. -/
theorem decode_eq_error_iff (w : Word) (e : Illegal) : decode w = .error e ↔ (commandFields w).problem = some e := by
  cases hproblem : (commandFields w).problem with
  | none =>
    obtain ⟨i, rfl⟩ := exists_encode_of_problem_eq_none w hproblem
    simp
  | some line =>
    have hne : ∀ i, encode i ≠ w := by
      rintro i rfl
      simp [commandFields_encode_problem] at hproblem
    simp [decode_of_forall_encode_ne w hne, hproblem]

theorem decode_eq_error_iff_firstMetAt (w : Word) (e : Illegal) : decode w = .error e ↔ e.FirstMetAt w.toNat :=
  (decode_eq_error_iff w e).trans (commandFields_problem_eq_some_iff w e)

/-- Settles O16: the words that decode are the encodings, which are the opcode map; the others meet a line of R94. -/
theorem decodeIsExactMatch : Obligations.DecodeIsExactMatch := fun w =>
  ⟨decode_eq_ok_iff w, fun i => (decode_eq_ok_iff w i).trans (mem_opcodeMap_iff w i).symm, decode_eq_error_iff w,
    decode_eq_error_iff_firstMetAt w .reservedBits, decode_eq_error_iff_firstMetAt w .unassignedOp,
    decode_eq_error_iff_firstMetAt w .keyOnControl, decode_eq_error_iff_firstMetAt w .keyMissing⟩

/-- Settles O15: each row of the opcode map is the encoding of its command. -/
theorem opcodeMapWords : Obligations.OpcodeMapWords := by
  rintro ⟨w, i⟩ hrow
  obtain rfl := (mem_opcodeMap_iff w i).1 hrow
  exact ⟨by rw [decode_encode]; rfl, rfl⟩

end Sys2Proof

/-! SUPPORT. The host's waits, and why a well-formed host program has no write dropped: a write that a command in flight
would drop comes after a WAIT, and a WAIT ends only when BUSY = 0. -/

namespace Sys2Proof.Machine

/-! ### POLL and waiting for `irq` -/

theorem State.pollOnce_eq (s : State) (addr mask value : Word) (rest : List HostOp) :
    s.pollOnce addr mask value rest =
      { s with
        reply := some (s.readReply 4 addr), draws := s.draws + 1,
        program := if (s.readReply 4 addr).data &&& mask = value then rest else s.program } := by
  unfold State.pollOnce
  split <;> rfl

/-- Settles O22: both waits keep the operation until their condition holds. -/
theorem waitsEndWhenTheirConditionHolds : Obligations.WaitsEndWhenTheirConditionHolds := by
  refine ⟨fun s addr mask value rest ⟨hturn, hprog⟩ => ?_, fun s rest ⟨hturn, hprog⟩ => ?_⟩
  · rw [step_of_host s hturn]
    simp only [State.hostTurn, hprog, State.pollOnce_eq]
    rfl
  · rw [step_of_host s hturn]
    simp only [State.hostTurn, hprog, State.irq]
    split <;> rfl

/-- A WAIT sees BUSY whether or not a command is in flight, since STATUS is no result register (R30, R103, R272). -/
theorem State.wait_done_iff (s : State) :
    (s.readReply 4 0x008#32).data &&& 0x1#32 = 0x0#32 ↔ s.busy = false := by
  rw [s.readReply_reg 0x008#32 .status rfl (.inr rfl) s.statusWord rfl]
  exact s.statusWord_busy

/-! ### Well-formed programs -/

@[simp] theorem wellFormedProgram_wait (b : Build) (pending : Bool) (rest : List HostOp) :
    wellFormedProgram b pending (HostOp.wait :: rest) = wellFormedProgram b false rest := if_pos rfl

theorem wellFormedProgram_cons_iff (b : Build) (pending : Bool) (op : HostOp) (rest : List HostOp)
    (hop : op ≠ HostOp.wait) :
    wellFormedProgram b pending (op :: rest) = true ↔
      (pending = true → op.mustWait b = false) ∧ wellFormedProgram b (pending || op.startsCommand b) rest = true := by
  rw [wellFormedProgram, if_neg hop]
  cases pending <;> simp

/-- What is well formed with a command in flight is so without one (R104). -/
theorem wellFormedProgram_mono (b : Build) (p : List HostOp) (pending pending' : Bool)
    (hle : pending' = true → pending = true) (h : wellFormedProgram b pending p = true) :
    wellFormedProgram b pending' p = true := by
  induction p generalizing pending pending' with
  | nil => rfl
  | cons op rest ih =>
    by_cases hop : op = HostOp.wait
    · subst hop
      rwa [wellFormedProgram_wait] at h ⊢
    · obtain ⟨hmust, hrest⟩ := (wellFormedProgram_cons_iff b pending op rest hop).1 h
      refine (wellFormedProgram_cons_iff b pending' op rest hop).2 ⟨hmust ∘ hle, ih _ _ (fun hpending => ?_) hrest⟩
      rw [Bool.or_eq_true] at hpending ⊢
      exact hpending.imp_left hle

/-- The rest of a disciplined program once its first operation is done, which for a WAIT needs BUSY = 0 (R104). -/
theorem State.Disciplined.afterFirst {s : State} (h : s.Disciplined) {op : HostOp} {rest : List HostOp}
    (hprog : s.program = op :: rest) (hwait : op = HostOp.wait → s.busy = false) :
    wellFormedProgram s.build (s.busy || op.startsCommand s.build) rest = true := by
  rw [State.Disciplined, hprog] at h
  by_cases hop : op = HostOp.wait
  · rw [hwait hop]
    subst hop
    exact h
  · exact ((wellFormedProgram_cons_iff _ _ op rest hop).1 h).2

theorem State.Disciplined.rest {s : State} (h : s.Disciplined) {op : HostOp} {rest : List HostOp}
    (hprog : s.program = op :: rest) (hwait : op = HostOp.wait → s.busy = false) :
    wellFormedProgram s.build s.busy rest = true :=
  wellFormedProgram_mono _ _ _ _ (by simp +contextual) (h.afterFirst hprog hwait)

/-- With a command in flight, a disciplined program's first operation is no write that would be dropped (R104, R270). -/
theorem State.Disciplined.not_dropped {s : State} (h : s.Disciplined) {size : Nat} {lanes : BitVec 4} {addr data : Word}
    {rest : List HostOp} (hprog : s.program = .write size lanes addr data :: rest) {target : Target}
    (htarget : HostOp.writes s.build (.write size lanes addr data) = some target) :
    (s.busy && target.inputOfEngine) = false := by
  have hop : HostOp.write size lanes addr data ≠ HostOp.wait := nofun
  rw [State.Disciplined, hprog, wellFormedProgram_cons_iff _ _ _ _ hop] at h
  obtain ⟨hmust, -⟩ := h
  cases hb : s.busy with
  | false => rfl
  | true => exact (by simpa [HostOp.mustWait, htarget] using hmust hb : _ ∧ _).1

theorem HostOp.startsCommand_of_writes_cmd {b : Build} {size : Nat} {lanes : BitVec 4} {addr data : Word}
    (h : HostOp.writes b (.write size lanes addr data) = some (.reg .cmd)) :
    HostOp.startsCommand b (.write size lanes addr data) = decide (data ≠ 0x0000000F#32) := by
  simp [HostOp.startsCommand, h]

/-! ### Steps without a hazard -/

/-- No hazard arises between `s` and `t`: the rest of the program stays well formed, HostHazard is not recorded and HZD
is not set (R104, R270, R271). -/
def HazardFree (s t : State) : Prop :=
  t.Disciplined ∧ t.hostHazard = s.hostHazard ∧ (t.hzd = true → s.hzd = true)

/-- A step that ends with no command in flight and leaves the program alone. -/
theorem State.Disciplined.idle {s : State} (h : s.Disciplined) : wellFormedProgram s.build false s.program = true :=
  wellFormedProgram_mono _ _ _ _ nofun h

/-- A completion clears BUSY and leaves the program and the hazard record (R230). -/
theorem State.Disciplined.engineTurn {s t : State} (h : s.Disciplined) (hnext : s.engineTurn = .next t) :
    HazardFree s t := by
  unfold State.engineTurn at hnext
  split at hnext
  next =>
    split at hnext
    next i _ =>
      by_cases hi : i = .softReset
      · subst hi
        cases hnext
        exact ⟨h.idle, rfl, nofun⟩
      · rw [exec_frame i s t hi hnext]
        exact ⟨h.idle, rfl, id⟩
    next =>
      cases hnext
      exact ⟨h.idle, rfl, id⟩
  next =>
    cases hnext
    exact ⟨h, rfl, id⟩

/-- STATUS is the only register besides CMD whose write touches the hazard bits, and it can only clear HZD (R29). -/
theorem State.Disciplined.writeReg {s : State} (h : s.Disciplined) (data : Word) (r : Reg) :
    HazardFree s (s.writeReg data r) := by
  cases r with
  | status => exact ⟨h, rfl, fun hzd => (Bool.and_eq_true_iff.1 hzd).1⟩
  | _ => exact ⟨h, rfl, id⟩

/-- A write to CMD starts a command unless it is SOFT_RESET's, and the program's rest counts it so (R104, R229). -/
theorem hazardFree_writeCmd (s t : State) (data : Word)
    (hrest : wellFormedProgram s.build (decide (data ≠ 0x0000000F#32)) s.program = true)
    (hnext : s.writeCmd data = .next t) : HazardFree s t := by
  unfold State.writeCmd at hnext
  split at hnext
  next hsoft =>
    cases hnext
    have hidle : wellFormedProgram s.build false s.program = true := by simpa [hsoft] using hrest
    exact ⟨hidle, rfl, nofun⟩
  next hother =>
    cases hnext
    have hbusy : wellFormedProgram s.build true s.program = true := by simpa [hother] using hrest
    exact ⟨hbusy, rfl, id⟩

/-- A write that is not dropped and does not start a command. -/
theorem State.Disciplined.writeTarget {s t : State} (h : s.Disciplined) (data : Word) {target : Target}
    (hcmd : target ≠ .reg .cmd) (hnext : s.writeTarget data target = .next t) : HazardFree s t := by
  cases target with
  | reg r =>
    have hr : r ≠ .cmd := by rintro rfl; exact hcmd rfl
    rw [State.writeTarget_reg data s r hr] at hnext
    cases hnext
    exact h.writeReg data r
  | pb _ | mb _ | kb _ | ob _ =>
    cases hnext
    exact ⟨h, rfl, id⟩

/-- The first operation of a disciplined program, a write: it is a bus error, or it is not dropped. -/
theorem State.Disciplined.busWrite {s t : State} (h : s.Disciplined) {size : Nat} {lanes : BitVec 4} {addr data : Word}
    {rest : List HostOp} (hprog : s.program = .write size lanes addr data :: rest)
    (hnext : State.busWrite size lanes addr data { s with program := rest } = .next t) : HazardFree s t := by
  have hidle : State.Disciplined { s with program := rest } := h.rest hprog nofun
  unfold State.busWrite at hnext
  split at hnext
  next =>
    cases hnext
    exact ⟨hidle, rfl, id⟩
  next target htarget =>
    replace htarget : HostOp.writes s.build (.write size lanes addr data) = some target := htarget
    have hkeep := h.not_dropped hprog htarget
    rw [hkeep] at hnext
    by_cases hcmd : target = .reg .cmd
    · subst hcmd
      have hb : s.busy = false := (Bool.and_true _).symm.trans hkeep
      have hrest := h.afterFirst hprog nofun
      rw [hb, Bool.false_or, HostOp.startsCommand_of_writes_cmd htarget] at hrest
      exact hazardFree_writeCmd (State.answer .okay 0 { s with program := rest }) t data hrest hnext
    · exact State.Disciplined.writeTarget (s := State.answer .okay 0 { s with program := rest }) hidle data hcmd hnext

/-- A POLL that is not done stays the next operation; a WAIT that is done has seen BUSY = 0. -/
theorem State.Disciplined.pollOnce {s : State} (h : s.Disciplined) {addr mask value : Word} {rest : List HostOp}
    (hprog : s.program = .poll addr mask value :: rest) : HazardFree s (s.pollOnce addr mask value rest) := by
  unfold State.pollOnce
  split
  next hdone =>
    refine ⟨h.rest hprog fun hwait => ?_, rfl, id⟩
    cases hwait
    exact s.wait_done_iff.1 hdone
  next => exact ⟨h, rfl, id⟩

/-- Each operation the host can be at is done without a hazard, or is kept. -/
theorem State.Disciplined.hostTurn {s t : State} (h : s.Disciplined) (hnext : s.hostTurn = .next t) :
    HazardFree s t := by
  unfold State.hostTurn at hnext
  split at hnext
  next =>
    cases hnext
    exact ⟨h, rfl, id⟩
  next hprog => exact h.busWrite hprog hnext
  next hprog =>
    cases hnext
    exact ⟨h.rest hprog nofun, rfl, id⟩
  next hprog =>
    cases hnext
    exact h.pollOnce hprog
  next hprog =>
    cases hnext
    split
    · exact ⟨h.rest hprog nofun, rfl, id⟩
    · exact ⟨h, rfl, id⟩

theorem State.Disciplined.hardwareReset {s : State} (h : s.Disciplined) : HazardFree s s.hardwareReset :=
  ⟨h.idle, rfl, nofun⟩

/-- Settles O44: by whose turn it is, over the state with its entry of the schedule used up. -/
theorem wellFormedProgramMeetsNoHazard : Obligations.WellFormedProgramMeetsNoHazard := by
  intro s t h hnext
  have hpopped : State.Disciplined { s with schedule := s.schedule.tail } := h
  cases hturn : s.turn with
  | engine => exact hpopped.engineTurn (step_of_engine s hturn ▸ hnext)
  | host => exact hpopped.hostTurn (step_of_host s hturn ▸ hnext)
  | rst =>
    rw [step_of_rst s hturn] at hnext
    cases hnext
    exact hpopped.hardwareReset

end Sys2Proof.Machine

/-! SUPPORT. Text to bits and back: what a group is worth, what a window reads, and which texts come back. -/

namespace Sys2Proof.Machine

/-! ### Groups -/

/-- A group has digits enough for its unit, so it is worth the unit: nothing is cut (R120). -/
theorem bitsValue_group (v : CodeUnit) : bitsValue (group v) = v.toNat := by
  have hfits : v.toNat < 2 ^ max 8 (bitlen v) :=
    (lt_two_pow_bitlen v).trans_le (Nat.pow_le_pow_right (by omega) (le_max_right ..))
  exact (bitsValue_digits v _).trans (Nat.mod_eq_of_lt hfits)

/-- The group of a unit above 0xFF is its numeral without padding, so its first digit is a 1 (R120). -/
theorem group_head?_of_wide (v : CodeUnit) (h : 0xFF < v.toNat) : (group v).head? = some true := by
  have hlen : (group v).length = bitlen v := by
    rw [group_length, max_eq_right (eight_lt_bitlen v h).le]
  have hpos := bitlen_pos v
  have hdigit : v.toNat.testBit (bitlen v - 1) = true :=
    Nat.testBit_of_two_pow_le_and_two_pow_add_one_gt (two_pow_bitlen_le v (by omega))
      (by rw [Nat.sub_add_cancel hpos]; exact lt_two_pow_bitlen v)
  rw [List.head?_eq_getElem?, List.getElem?_eq_getElem (hlen ▸ hpos), group_getElem, hlen]
  exact congrArg some hdigit

/-- Settles O1: the value, the padded length and the unpadded one. -/
theorem groupIsPaddedNumeral : Obligations.GroupIsPaddedNumeral := fun v =>
  ⟨bitsValue_group v, group_length_of_le v, fun h =>
    ⟨by rw [group_length]; exact lt_max_of_lt_right (eight_lt_bitlen v h), group_head?_of_wide v h⟩⟩

/-! ### Texts -/

theorem t2b_length (t : Text) : (t2b t).length = (t.map fun c => max 8 (bitlen c)).sum := by
  simp [t2b, List.length_flatMap]

theorem t2b_length_of_narrow (t : Text) (h : ∀ c ∈ t, c.toNat ≤ 0xFF) : (t2b t).length = 8 * t.length := by
  induction t with
  | nil => rfl
  | cons c t ih =>
    obtain ⟨hc, ht⟩ := List.forall_mem_cons.1 h
    rw [t2b_cons, List.length_append, group_length_of_le c hc, ih ht, List.length_cons]
    omega

/-- Settles O2. -/
theorem textToBitsConcatenatesGroups : Obligations.TextToBitsConcatenatesGroups := fun t =>
  ⟨List.flatMap_def, t2b_length t, t2b_length_of_narrow t⟩

/-! ### Windows -/

/-- Unit `i` of a text read from bits is worth the window of 8 bits that it was read from (R123). -/
theorem b2t_getElem (b : Bits) (i : Nat) (h : i < (b2t b).length) :
    (b2t b)[i] = BitVec.ofNat 16 (bitsValue ((b.drop (8 * i)).take 8)) := by
  induction b using window_induction generalizing i with
  | short b hb => simp [b2t_short b hb] at h
  | window a b ha ih =>
    cases i with
    | zero => simp [b2t_append a b ha, ha]
    | succ i =>
      have hdrop : (a ++ b).drop (8 * (i + 1)) = b.drop (8 * i) := by
        rw [List.drop_append, List.drop_eq_nil_of_le (by omega), List.nil_append, ha]
        congr 1
      simp [b2t_append a b ha, ih, hdrop]

/-- The base-2 integer of eight bits, position by position (R123). -/
theorem bitsValue_window (w : Bits) (h : w.length = 8) :
    bitsValue w = ((List.range 8).map fun k => (w.getD k false).toNat * 2 ^ (7 - k)).sum := by
  match w, h with
  | [b0, b1, b2, b3, b4, b5, b6, b7], _ => simp [bitsValue_cons, List.range_succ]

/-- Every unit read is worth a window of 8 bits, so it is a byte. -/
theorem b2t_getElem_toNat (b : Bits) (i : Nat) (h : i < (b2t b).length) :
    (b2t b)[i].toNat = bitsValue ((b.drop (8 * i)).take 8) ∧ (b2t b)[i].toNat ≤ 0xFF := by
  have hlt := bitsValue_lt ((b.drop (8 * i)).take 8)
  have hpow : 2 ^ ((b.drop (8 * i)).take 8).length ≤ 2 ^ 8 :=
    Nat.pow_le_pow_right (by omega) (List.length_take_le ..)
  rw [b2t_getElem, BitVec.toNat_ofNat, Nat.mod_eq_of_lt (by omega)]
  exact ⟨rfl, by omega⟩

/-- Settles O3: each unit is worth its own window. -/
theorem bitsToTextReadsWindows : Obligations.BitsToTextReadsWindows := by
  refine fun b => ⟨b2t_length b, fun i h => ?_⟩
  obtain ⟨hvalue, hbyte⟩ := b2t_getElem_toNat b i h
  rw [b2t_length] at h
  refine ⟨?_, hbyte⟩
  rw [hvalue, bitsValue_window _ (by simp; omega)]
  refine congrArg List.sum (List.map_congr_left fun k hk => ?_)
  simp [List.getD_eq_getElem?_getD, List.mem_range.1 hk]

/-! ### There and back -/

/-- A byte's group is one window, and it reads back as the byte. -/
theorem b2t_group_append (c : CodeUnit) (b : Bits) (h : c.toNat ≤ 0xFF) : b2t (group c ++ b) = c :: b2t b := by
  rw [b2t_append _ _ (group_length_of_le c h), bitsValue_group, BitVec.ofNat_toNat, BitVec.setWidth_eq]

/-- Bytes in front of any bits come back, and the bits after them are read on their own. -/
theorem b2t_t2b_append (t : Text) (b : Bits) (h : ∀ c ∈ t, c.toNat ≤ 0xFF) : b2t (t2b t ++ b) = t ++ b2t b := by
  induction t with
  | nil => rfl
  | cons c t ih =>
    obtain ⟨hc, ht⟩ := List.forall_mem_cons.1 h
    rw [t2b_cons, List.append_assoc, b2t_group_append c _ hc, ih ht, List.cons_append]

theorem b2t_t2b (t : Text) (h : ∀ c ∈ t, c.toNat ≤ 0xFF) : b2t (t2b t) = t := by
  simpa [b2t_short] using b2t_t2b_append t [] h

/-- A window is the group of the unit read from it. -/
theorem group_of_window (w : Bits) (h : w.length = 8) : group (BitVec.ofNat 16 (bitsValue w)) = w := by
  have hlt := bitsValue_lt w
  rw [h] at hlt
  have hvalue : (BitVec.ofNat 16 (bitsValue w)).toNat = bitsValue w := by
    rw [BitVec.toNat_ofNat, Nat.mod_eq_of_lt (by omega)]
  refine bits_eq_of_value _ _ ?_ (by rw [bitsValue_group, hvalue])
  rw [group_length_of_le _ (by omega), h]

theorem t2b_b2t (b : Bits) (h : b.length % 8 = 0) : t2b (b2t b) = b := by
  induction b using window_induction with
  | short b hb =>
    obtain rfl : b = [] := List.length_eq_zero_iff.1 (by omega)
    rfl
  | window a b ha ih =>
    rw [List.length_append, ha, Nat.add_mod_left] at h
    rw [b2t_append a b ha, t2b_cons, group_of_window a ha, ih h]

/-- Settles O4. -/
theorem codecRoundTrip : Obligations.CodecRoundTrip := ⟨b2t_t2b, t2b_b2t⟩

/-- Settles O5: the units before the wide one are one window each, and no window is worth a wide unit. -/
theorem wideUnitBreaksRoundTrip : Obligations.WideUnitBreaksRoundTrip := by
  intro pre post v hpre hv
  have hread : b2t (t2b (pre ++ v :: post)) = pre ++ b2t (t2b (v :: post)) := by
    rw [t2b_append, b2t_t2b_append pre _ hpre]
  refine ⟨by rw [hread, List.take_left' rfl], fun hback => ?_⟩
  obtain ⟨hlt, hunit⟩ := List.getElem?_eq_some_iff.1 hback
  have hbyte := (b2t_getElem_toNat _ _ hlt).2
  rw [hunit] at hbyte
  omega

end Sys2Proof.Machine

/-! SUPPORT. Base64, one group of three bytes and four characters at a time, in both directions. -/

namespace Sys2Proof.Machine

/-! ### The alphabet of encoded text -/

@[simp] theorem b64Val_b64Digit (v : BitVec 24) (lo : Nat) : b64Val (b64Digit v lo) = some (v.extractLsb' lo 6) :=
  b64Val_b64Char _

theorem b64Enc_alphabet (x : List Byte) : ∀ c ∈ b64Enc x, (b64Val c).isSome ∨ c = padChar := by
  induction x using b64Enc.induct with
  | case1 => simp [b64Enc]
  | case2 a => simp [b64Enc]
  | case3 a b => simp [b64Enc]
  | case4 a b c rest ih => simpa [b64Enc] using ih

/-- The value of a unit as a group's decoding reads it, 0 outside the alphabet (R127). -/
def sextet (c : CodeUnit) : BitVec 6 := (b64Val c).getD 0

/-- A unit of the alphabet is the character of its value. -/
theorem b64Char_sextet (c : CodeUnit) (h : (b64Val c).isSome) : b64Char (sextet c) = c := by
  obtain ⟨v, hv⟩ := Option.isSome_iff_exists.1 h
  rw [sextet, hv, Option.getD_some, b64Char_of_b64Val c v hv]

theorem b64Char_injective : Function.Injective b64Char := fun v w h => by
  simpa [b64Val_b64Char] using congrArg b64Val h

/-- Settles O6: a unit of the text is a character of the alphabet, whose range is known, or the pad. -/
theorem baseSixtyFourTextShape : Obligations.BaseSixtyFourTextShape := by
  refine fun x => ⟨b64Enc_length x, fun c hc => ?_⟩
  have hc := b64Enc_alphabet x c hc
  have hrange : 0x2B ≤ c.toNat ∧ c.toNat ≤ 0x7A := by
    rcases hc with hval | rfl
    · obtain ⟨hlow, hhigh, -⟩ := b64Char_range (sextet c)
      rw [b64Char_sextet c hval] at hlow hhigh
      exact ⟨hlow, hhigh⟩
    · decide
  refine ⟨hc, hrange.1, hrange.2, ?_⟩
  rintro rfl
  exact absurd hrange.2 (by decide)

/-! ### The pads of a text -/

theorem padCount_le_two (t : Text) : padCount t ≤ 2 := by
  unfold padCount
  split
  · split_ifs <;> omega
  · split_ifs <;> omega
  · omega

/-- The pads are looked for in the last two units only. -/
theorem padCount_append (t u : Text) (h : 2 ≤ u.length) : padCount (t ++ u) = padCount u := by
  obtain ⟨c, d, r, hr⟩ : ∃ c d r, u.reverse = c :: d :: r := by
    match u.reverse, (u.length_reverse).trans_ge h with
    | c :: d :: r, _ => exact ⟨c, d, r, rfl⟩
  simp only [padCount, List.reverse_append, hr, List.cons_append]

theorem padCount_four (a b c d : CodeUnit) :
    padCount [a, b, c, d] = if d = padChar then (if c = padChar then 2 else 1) else 0 := rfl

/-! ### Strict decoding -/

/-- Neither F1 nor F2 applies: the groups are full, and every unit before the counted pads is in the alphabet (R127). -/
abbrev B64Decodable (t : Text) : Prop :=
  t.length % 4 = 0 ∧ ∀ c ∈ t.take (t.length - padCount t), (b64Val c).isSome

theorem b64Dec_eq (t : Text) :
    b64Dec t = if B64Decodable t then some (b64DecGroups (padCount t) t) else none := by
  have hany : (t.take (t.length - padCount t)).any (fun c => (b64Val c).isNone) = true ↔
      ¬ ∀ c ∈ t.take (t.length - padCount t), (b64Val c).isSome := by simp
  simp only [b64Dec, ne_eq, hany, ite_not, ite_and]

theorem b64Dec_eq_some_iff (t : Text) (x : List Byte) :
    b64Dec t = some x ↔ B64Decodable t ∧ b64DecGroups (padCount t) t = x := by
  rw [b64Dec_eq, Option.ite_none_right_eq_some, Option.some_inj]

theorem b64Dec_eq_none_iff (t : Text) :
    b64Dec t = none ↔ t.length % 4 ≠ 0 ∨ ∃ c ∈ t.take (t.length - padCount t), b64Val c = none := by
  simp [b64Dec_eq, B64Decodable, -not_and, not_and_or]

/-- A text of full groups, group by group; the last one is apart, since it alone may hold pads. -/
inductive FullGroups : Text → Prop
  | nil : FullGroups []
  | last (a b c d : CodeUnit) : FullGroups [a, b, c, d]
  | more (a b c d : CodeUnit) (rest : Text) : 4 ≤ rest.length → FullGroups rest → FullGroups (a :: b :: c :: d :: rest)

theorem fullGroups_of_length (t : Text) (ht : t.length % 4 = 0) : FullGroups t := by
  induction t using b64DecGroups.induct with
  | case1 a b c d => exact .last a b c d
  | case2 a b c d rest hrest ih =>
    have hpos := List.length_pos_iff.2 hrest
    simp only [List.length_cons] at ht
    exact .more a b c d rest (by omega) (ih (by omega))
  | case3 t _ hmore =>
    match t with
    | [] => exact .nil
    | a :: b :: c :: d :: rest => exact absurd rfl (hmore a b c d rest)

theorem b64DecGroups_more (p : Nat) (a b c d : CodeUnit) (rest : Text) (h : 4 ≤ rest.length) :
    b64DecGroups p (a :: b :: c :: d :: rest) = b64Bytes a b c d ++ b64DecGroups p rest := by
  rw [b64DecGroups]
  rintro rfl
  simp at h

/-- Three bytes per group, less the pads (R127). -/
theorem b64DecGroups_length (p : Nat) (t : Text) (hp : p ≤ 2) (ht : FullGroups t) :
    (b64DecGroups p t).length = 3 * (t.length / 4) - p := by
  induction ht with
  | nil => simp [b64DecGroups]
  | last a b c d => simp [b64DecGroups, b64Bytes]
  | more a b c d rest hrest _ ih =>
    rw [b64DecGroups_more p a b c d rest hrest, List.length_append, ih, b64Bytes]
    simp only [List.length_cons, List.length_nil]
    omega

theorem exists_mem_take_iff {α : Type} (l : List α) (n : Nat) (P : α → Prop) :
    (∃ c ∈ l.take n, P c) ↔ ∃ (i : Nat) (h : i < l.length), i < n ∧ P l[i] := by
  simp only [List.mem_take_iff_getElem, lt_min_iff]
  constructor
  · rintro ⟨_, ⟨i, ⟨hn, hl⟩, rfl⟩, hP⟩
    exact ⟨i, hl, hn, hP⟩
  · rintro ⟨i, hl, hn, hP⟩
    exact ⟨l[i], ⟨i, ⟨hn, hl⟩, rfl⟩, hP⟩

/-- Settles O8: the two ways to fail, and the bytes of the groups counted. -/
theorem baseSixtyFourDecodeIsStrict : Obligations.BaseSixtyFourDecodeIsStrict := by
  refine fun t => ⟨by rw [b64Dec_eq_none_iff, exists_mem_take_iff], fun x hx => ?_⟩
  obtain ⟨⟨hlen, -⟩, rfl⟩ := (b64Dec_eq_some_iff t x).1 hx
  exact b64DecGroups_length _ t (padCount_le_two t) (fullGroups_of_length t hlen)

/-! ### The 24 bits of a group -/

/-- Three bytes as the 24 bits that a group encodes (R125). -/
abbrev ofBytes (a b c : Byte) : BitVec 24 := a ++ (b ++ c)

/-- Four units as the 24 bits that their group decodes to (R127). -/
abbrev ofUnits (a b c d : CodeUnit) : BitVec 24 := sextet a ++ (sextet b ++ (sextet c ++ sextet d))

/-- A sextet with its low `n` bits cleared. -/
abbrev clearLow (n : Nat) (v : BitVec 6) : BitVec 6 := v >>> n <<< n

theorem toNat_ofBytes (a b c : Byte) : (ofBytes a b c).toNat = 2 ^ 16 * a.toNat + 2 ^ 8 * b.toNat + c.toNat := by
  rw [toNat_append_eq_add, toNat_append_eq_add]
  omega

theorem toNat_ofUnits (a b c d : CodeUnit) :
    (ofUnits a b c d).toNat =
      2 ^ 18 * (sextet a).toNat + 2 ^ 12 * (sextet b).toNat + 2 ^ 6 * (sextet c).toNat + (sextet d).toNat := by
  rw [toNat_append_eq_add, toNat_append_eq_add, toNat_append_eq_add]
  omega

theorem toNat_slice (v : BitVec 24) (lo n : Nat) : (v.extractLsb' lo n).toNat = v.toNat / 2 ^ lo % 2 ^ n := by
  rw [BitVec.extractLsb'_toNat, Nat.shiftRight_eq_div_pow]

theorem toNat_clearLow (n : Nat) (v : BitVec 6) : (clearLow n v).toNat = v.toNat / 2 ^ n * 2 ^ n := by
  have hle := Nat.div_mul_le_self v.toNat (2 ^ n)
  rw [BitVec.toNat_shiftLeft, BitVec.toNat_ushiftRight, Nat.shiftRight_eq_div_pow, Nat.shiftLeft_eq,
    Nat.mod_eq_of_lt (hle.trans_lt v.isLt)]

theorem clearLow_eq_self_iff (n : Nat) (v : BitVec 6) : clearLow n v = v ↔ v.toNat % 2 ^ n = 0 := by
  have hsplit := Nat.div_add_mod' v.toNat (2 ^ n)
  rw [← BitVec.toNat_inj, toNat_clearLow]
  omega

theorem slices_ofUnits (a b c d : CodeUnit) :
    (ofUnits a b c d).extractLsb' 18 6 = sextet a ∧ (ofUnits a b c d).extractLsb' 12 6 = sextet b ∧
    (ofUnits a b c d).extractLsb' 6 6 = sextet c ∧ (ofUnits a b c d).extractLsb' 0 6 = sextet d := by
  simp only [← BitVec.toNat_inj, toNat_slice, toNat_ofUnits]
  omega

theorem slices_ofBytes (a b c : Byte) :
    (ofBytes a b c).extractLsb' 16 8 = a ∧ (ofBytes a b c).extractLsb' 8 8 = b ∧
    (ofBytes a b c).extractLsb' 0 8 = c := by
  simp only [← BitVec.toNat_inj, toNat_slice, toNat_ofBytes]
  omega

theorem ofBytes_slices (v : BitVec 24) :
    ofBytes (v.extractLsb' 16 8) (v.extractLsb' 8 8) (v.extractLsb' 0 8) = v := by
  rw [← BitVec.toNat_inj, toNat_ofBytes, toNat_slice, toNat_slice, toNat_slice]
  omega

/-- Two bytes of a group keep its sextets but for the low 2 bits of the third (R125). -/
theorem slices_ofBytes_two (v : BitVec 24) :
    (ofBytes (v.extractLsb' 16 8) (v.extractLsb' 8 8) 0#8).extractLsb' 18 6 = v.extractLsb' 18 6 ∧
    (ofBytes (v.extractLsb' 16 8) (v.extractLsb' 8 8) 0#8).extractLsb' 12 6 = v.extractLsb' 12 6 ∧
    (ofBytes (v.extractLsb' 16 8) (v.extractLsb' 8 8) 0#8).extractLsb' 6 6 = clearLow 2 (v.extractLsb' 6 6) := by
  simp only [← BitVec.toNat_inj, toNat_slice, toNat_ofBytes, toNat_clearLow, BitVec.toNat_zero]
  omega

/-- One byte of a group keeps its first sextet, and the second but for its low 4 bits (R125). -/
theorem slices_ofBytes_one (v : BitVec 24) :
    (ofBytes (v.extractLsb' 16 8) 0#8 0#8).extractLsb' 18 6 = v.extractLsb' 18 6 ∧
    (ofBytes (v.extractLsb' 16 8) 0#8 0#8).extractLsb' 12 6 = clearLow 4 (v.extractLsb' 12 6) := by
  simp only [← BitVec.toNat_inj, toNat_slice, toNat_ofBytes, toNat_clearLow, BitVec.toNat_zero]
  omega

@[simp] theorem sextet_b64Digit (v : BitVec 24) (lo : Nat) : sextet (b64Digit v lo) = v.extractLsb' lo 6 := by
  rw [sextet, b64Val_b64Digit, Option.getD_some]

/-- A pad is worth the sextet that two bytes leave empty, 0 (R125, R127). -/
theorem sextet_padChar_two (a b : Byte) : sextet padChar = (ofBytes a b 0#8).extractLsb' 0 6 := by
  change 0#6 = _
  simp only [← BitVec.toNat_inj, toNat_slice, toNat_ofBytes, BitVec.toNat_zero]
  omega

/-- One byte leaves the third sextet empty as well. -/
theorem sextet_padChar_one (a : Byte) : sextet padChar = (ofBytes a 0#8 0#8).extractLsb' 6 6 := by
  change 0#6 = _
  simp only [← BitVec.toNat_inj, toNat_slice, toNat_ofBytes, BitVec.toNat_zero]
  omega

theorem b64Digit_ne_padChar (v : BitVec 24) (lo : Nat) : b64Digit v lo ≠ padChar :=
  (b64Char_range _).2.2

/-! ### One group, encoded -/

theorem b64Bytes_eq (a b c d : CodeUnit) :
    b64Bytes a b c d = [(ofUnits a b c d).extractLsb' 16 8, (ofUnits a b c d).extractLsb' 8 8,
      (ofUnits a b c d).extractLsb' 0 8] := rfl

theorem b64Enc_more (a b c : Byte) (x : List Byte) :
    b64Enc (a :: b :: c :: x) = b64Digit (ofBytes a b c) 18 :: b64Digit (ofBytes a b c) 12 ::
      b64Digit (ofBytes a b c) 6 :: b64Digit (ofBytes a b c) 0 :: b64Enc x := rfl

theorem b64Enc_two (a b : Byte) :
    b64Enc [a, b] =
      [b64Digit (ofBytes a b 0#8) 18, b64Digit (ofBytes a b 0#8) 12, b64Digit (ofBytes a b 0#8) 6, padChar] := rfl

theorem b64Enc_one (a : Byte) :
    b64Enc [a] = [b64Digit (ofBytes a 0#8 0#8) 18, b64Digit (ofBytes a 0#8 0#8) 12, padChar, padChar] := rfl

/-- The bytes of a group of the alphabet encode to the group. -/
theorem b64Enc_b64Bytes_append (a b c d : CodeUnit) (x : List Byte) (ha : (b64Val a).isSome) (hb : (b64Val b).isSome)
    (hc : (b64Val c).isSome) (hd : (b64Val d).isSome) :
    b64Enc (b64Bytes a b c d ++ x) = a :: b :: c :: d :: b64Enc x := by
  obtain ⟨h18, h12, h6, h0⟩ := slices_ofUnits a b c d
  rw [b64Bytes_eq, List.cons_append, List.cons_append, List.cons_append, List.nil_append, b64Enc_more, ofBytes_slices]
  simp only [b64Digit, h18, h12, h6, h0, b64Char_sextet, ha, hb, hc, hd]

/-- The first two bytes of a group encode to it but for the 2 bits that decoding discards. -/
theorem b64Enc_b64Bytes_two (a b c d : CodeUnit) (ha : (b64Val a).isSome) (hb : (b64Val b).isSome) :
    b64Enc ((b64Bytes a b c d).take 2) = [a, b, b64Char (clearLow 2 (sextet c)), padChar] := by
  obtain ⟨h18, h12, h6, -⟩ := slices_ofUnits a b c d
  obtain ⟨k18, k12, k6⟩ := slices_ofBytes_two (ofUnits a b c d)
  rw [b64Bytes_eq, List.take_succ_cons, List.take_succ_cons, List.take_zero, b64Enc_two]
  simp only [b64Digit, k18, k12, k6, h18, h12, h6, b64Char_sextet, ha, hb]

/-- The first byte of a group encodes to it but for the 4 bits that decoding discards. -/
theorem b64Enc_b64Bytes_one (a b c d : CodeUnit) (ha : (b64Val a).isSome) :
    b64Enc ((b64Bytes a b c d).take 1) = [a, b64Char (clearLow 4 (sextet b)), padChar, padChar] := by
  obtain ⟨h18, h12, -, -⟩ := slices_ofUnits a b c d
  obtain ⟨k18, k12⟩ := slices_ofBytes_one (ofUnits a b c d)
  rw [b64Bytes_eq, List.take_succ_cons, List.take_zero, b64Enc_one]
  simp only [b64Digit, k18, k12, h18, h12, b64Char_sextet, ha]

/-! ### One group, decoded -/

theorem padCount_more (a b c d : CodeUnit) (rest : Text) (h : 4 ≤ rest.length) :
    padCount (a :: b :: c :: d :: rest) = padCount rest :=
  padCount_append [a, b, c, d] rest (by omega)

theorem b64Decodable_more (a b c d : CodeUnit) (rest : Text) (h : 4 ≤ rest.length) :
    B64Decodable (a :: b :: c :: d :: rest) ↔
      ((b64Val a).isSome ∧ (b64Val b).isSome ∧ (b64Val c).isSome ∧ (b64Val d).isSome) ∧ B64Decodable rest := by
  have hp := padCount_le_two rest
  have hlen : (a :: b :: c :: d :: rest).length - padCount rest = rest.length - padCount rest + 4 := by
    simp only [List.length_cons]; omega
  rw [B64Decodable, padCount_more a b c d rest h, hlen]
  simp only [List.take_succ_cons, List.forall_mem_cons, List.length_cons, B64Decodable]
  rw [show (rest.length + 1 + 1 + 1 + 1) % 4 = rest.length % 4 by omega]
  tauto

theorem b64Dec_more_eq_some_iff (a b c d : CodeUnit) (rest : Text) (x : List Byte) (h : 4 ≤ rest.length) :
    b64Dec (a :: b :: c :: d :: rest) = some x ↔
      ((b64Val a).isSome ∧ (b64Val b).isSome ∧ (b64Val c).isSome ∧ (b64Val d).isSome) ∧
        ∃ y, b64Dec rest = some y ∧ b64Bytes a b c d ++ y = x := by
  rw [b64Dec_eq_some_iff, b64Decodable_more a b c d rest h, padCount_more a b c d rest h,
    b64DecGroups_more _ a b c d rest h]
  constructor
  · rintro ⟨⟨halpha, hrest⟩, rfl⟩
    exact ⟨halpha, _, (b64Dec_eq_some_iff ..).2 ⟨hrest, rfl⟩, rfl⟩
  · rintro ⟨halpha, y, hy, rfl⟩
    obtain ⟨hrest, rfl⟩ := (b64Dec_eq_some_iff ..).1 hy
    exact ⟨⟨halpha, hrest⟩, rfl⟩

/-- The last group: only the units before its pads must be in the alphabet, and only as many bytes come out. -/
theorem b64Dec_last_eq_some_iff (a b c d : CodeUnit) (x : List Byte) :
    b64Dec [a, b, c, d] = some x ↔
      (∀ e ∈ [a, b, c, d].take (4 - padCount [a, b, c, d]), (b64Val e).isSome) ∧
        (b64Bytes a b c d).take (3 - padCount [a, b, c, d]) = x := by
  rw [b64Dec_eq_some_iff, B64Decodable, b64DecGroups]
  simp

/-- The three ways a group can end a text: no pad, one pad, two pads. -/
theorem padCount_four_cases (a b c d : CodeUnit) :
    padCount [a, b, c, d] = 0 ∨ (padCount [a, b, c, d] = 1 ∧ d = padChar) ∨
      (padCount [a, b, c, d] = 2 ∧ c = padChar ∧ d = padChar) := by
  rw [padCount_four]
  split_ifs with hd hc
  · exact .inr (.inr ⟨rfl, hc, hd⟩)
  · exact .inr (.inl ⟨rfl, hd⟩)
  · exact .inl rfl

/-! ### There and back -/

/-- Units worth the four sextets of three bytes decode to the bytes. -/
theorem b64Bytes_of_sextets (a b c : Byte) (p q r s : CodeUnit) (hp : sextet p = (ofBytes a b c).extractLsb' 18 6)
    (hq : sextet q = (ofBytes a b c).extractLsb' 12 6) (hr : sextet r = (ofBytes a b c).extractLsb' 6 6)
    (hs : sextet s = (ofBytes a b c).extractLsb' 0 6) : b64Bytes p q r s = [a, b, c] := by
  have hgroup : ofUnits p q r s = ofBytes a b c := by
    simp only [← BitVec.toNat_inj, toNat_ofUnits, hp, hq, hr, hs, toNat_slice]
    omega
  obtain ⟨h16, h8, h0⟩ := slices_ofBytes a b c
  rw [b64Bytes_eq, hgroup, h16, h8, h0]

/-- Strict decoding accepts every encoded text: a pad stands for a sextet that is 0 (R129). -/
theorem b64Dec_b64Enc (x : List Byte) : b64Dec (b64Enc x) = some x := by
  induction x using b64Enc.induct with
  | case1 => rfl
  | case2 a =>
    rw [b64Enc_one, b64Dec_last_eq_some_iff, padCount_four, if_pos rfl, if_pos rfl,
      b64Bytes_of_sextets a 0#8 0#8 _ _ _ _ (sextet_b64Digit ..) (sextet_b64Digit ..) (sextet_padChar_one a)
        (sextet_padChar_two a 0#8)]
    exact ⟨by simp, rfl⟩
  | case3 a b =>
    rw [b64Enc_two, b64Dec_last_eq_some_iff, padCount_four, if_pos rfl, if_neg (b64Digit_ne_padChar _ _),
      b64Bytes_of_sextets a b 0#8 _ _ _ _ (sextet_b64Digit ..) (sextet_b64Digit ..) (sextet_b64Digit ..)
        (sextet_padChar_two a b)]
    exact ⟨by simp, rfl⟩
  | case4 a b c rest ih =>
    have hbytes := b64Bytes_of_sextets a b c _ _ _ _ (sextet_b64Digit ..) (sextet_b64Digit ..) (sextet_b64Digit ..)
      (sextet_b64Digit ..)
    rw [b64Enc_more]
    cases rest with
    | nil =>
      rw [b64Enc, b64Dec_last_eq_some_iff, padCount_four, if_neg (b64Digit_ne_padChar _ _), hbytes]
      exact ⟨by simp, rfl⟩
    | cons e rest =>
      rw [b64Dec_more_eq_some_iff _ _ _ _ _ _ (by rw [b64Enc_length, List.length_cons]; omega), hbytes]
      exact ⟨by simp, _, ih, rfl⟩

/-- The bits that the last group's decoding discards are zero (R129). -/
def CanonicalEnd (t : Text) : Prop :=
  ∀ v : BitVec 6, (t[t.length - 1 - padCount t]?).bind b64Val = some v → v.toNat % 2 ^ (2 * padCount t) = 0

theorem canonicalEnd_more (a b c d : CodeUnit) (rest : Text) (h : 4 ≤ rest.length) :
    CanonicalEnd (a :: b :: c :: d :: rest) ↔ CanonicalEnd rest := by
  have hp := padCount_le_two rest
  have hlast : (a :: b :: c :: d :: rest).length - 1 - padCount rest = rest.length - 1 - padCount rest + 4 := by
    simp only [List.length_cons]; omega
  rw [CanonicalEnd, padCount_more a b c d rest h, hlast]
  rfl

/-- Where the unit before the pads is in the alphabet, its low bits are the ones that decoding discards. -/
theorem canonicalEnd_iff (t : Text) (c : CodeUnit) (hlast : t[t.length - 1 - padCount t]? = some c)
    (hc : (b64Val c).isSome) : CanonicalEnd t ↔ (sextet c).toNat % 2 ^ (2 * padCount t) = 0 := by
  obtain ⟨v, hv⟩ := Option.isSome_iff_exists.1 hc
  simp [CanonicalEnd, hlast, hv, sextet]

/-- The character of a sextet with its low bits cleared is the unit itself just when they are zero. -/
theorem b64Char_clearLow_eq_iff (n : Nat) (c : CodeUnit) (hc : (b64Val c).isSome) :
    b64Char (clearLow n (sextet c)) = c ↔ (sextet c).toNat % 2 ^ n = 0 := by
  rw [← clearLow_eq_self_iff, ← b64Char_injective.eq_iff, b64Char_sextet c hc]

theorem b64Enc_last_eq_iff (a b c d : CodeUnit) (x : List Byte) (h : b64Dec [a, b, c, d] = some x) :
    b64Enc x = [a, b, c, d] ↔ CanonicalEnd [a, b, c, d] := by
  obtain ⟨halpha, rfl⟩ := (b64Dec_last_eq_some_iff ..).1 h
  rcases padCount_four_cases a b c d with hp | ⟨hp, rfl⟩ | ⟨hp, rfl, rfl⟩ <;>
    simp only [hp, Nat.reduceSub, List.take_succ_cons, List.take_zero, List.forall_mem_cons] at halpha
  · obtain ⟨ha, hb, hc, hd, -⟩ := halpha
    have henc : b64Enc (b64Bytes a b c d) = [a, b, c, d] := b64Enc_b64Bytes_append a b c d [] ha hb hc hd
    rw [canonicalEnd_iff _ d (by rw [hp]; rfl) hd, hp]
    exact iff_of_true henc (Nat.mod_one _)
  · obtain ⟨ha, hb, hc, -⟩ := halpha
    rw [canonicalEnd_iff _ c (by rw [hp]; rfl) hc, hp, b64Enc_b64Bytes_two a b c _ ha hb,
      ← b64Char_clearLow_eq_iff 2 c hc]
    simp
  · obtain ⟨ha, hb, -⟩ := halpha
    rw [canonicalEnd_iff _ b (by rw [hp]; rfl) hb, hp, b64Enc_b64Bytes_one a b _ _ ha,
      ← b64Char_clearLow_eq_iff 4 b hb]
    simp

theorem b64Enc_eq_iff_canonicalEnd (t : Text) (x : List Byte) (h : b64Dec t = some x) :
    b64Enc x = t ↔ CanonicalEnd t := by
  obtain ⟨⟨hlen, -⟩, -⟩ := (b64Dec_eq_some_iff t x).1 h
  have hgroups := fullGroups_of_length t hlen
  clear hlen
  induction hgroups generalizing x with
  | nil =>
    cases h
    exact iff_of_true rfl nofun
  | last a b c d => exact b64Enc_last_eq_iff a b c d x h
  | more a b c d rest hrest _ ih =>
    obtain ⟨⟨ha, hb, hc, hd⟩, y, hy, rfl⟩ := (b64Dec_more_eq_some_iff a b c d rest x hrest).1 h
    rw [b64Enc_b64Bytes_append a b c d y ha hb hc hd, canonicalEnd_more a b c d rest hrest]
    simpa using ih y hy

/-- Settles O7: the second half is `CanonicalEnd` written out. -/
theorem baseSixtyFourRoundTrip : Obligations.BaseSixtyFourRoundTrip :=
  ⟨b64Dec_b64Enc, b64Enc_eq_iff_canonicalEnd⟩

end Sys2Proof.Machine

/-! SUPPORT. What the keyed commands answer once their checks pass and their operands are written: the transform's
result, or DECODE. -/

namespace Sys2Proof.Machine

/-! ### Operands that are there -/

theorem State.HasImage.passes {s : State} (h : s.HasImage) : Check.fails .v1 s = false ∧ Check.fails .v2 s = false := by
  obtain ⟨hw, hh, hfit⟩ := h
  exact ⟨decide_eq_false (not_or.2 ⟨hw, hh⟩), (Check.v2_passes_iff s).2 hfit⟩

theorem State.HasMessage.passes {s : State} {m : Text} (h : s.HasMessage m) :
    Check.fails .v3 s = false ∧ Check.fails .v4 s = false := by
  obtain ⟨hne, hfit, -⟩ := h
  exact ⟨decide_eq_false hne, (Check.v4_passes_iff s).2 hfit⟩

theorem State.HasKey.passes {s : State} {k : Text} (h : s.HasKey k) :
    Check.fails .v5 s = false ∧ Check.fails .v6 s = false := by
  obtain ⟨hne, hfit, -⟩ := h
  exact ⟨decide_eq_false hne, decide_eq_false (not_lt.2 hfit)⟩

theorem State.HasMessage.messageText {s : State} {m : Text} (h : s.HasMessage m) : s.messageText = .ok m :=
  (s.messageText_iff_hasMessage m h.1 h.2.1).2 h

theorem State.HasKey.keyText {s : State} {k : Text} (h : s.HasKey k) : s.keyText = .ok k :=
  (s.keyText_iff_hasKey k h.1 h.2.1).2 h

/-- The payload is the text before the first terminator (R176). -/
theorem findPayload_of_split (bits : Bits) (r rest : Text) (hsplit : b2t bits = r ++ sentinel :: rest)
    (hr : sentinel ∉ r) : findPayload bits = some r := by
  have hall : ∀ c ∈ r, decide (c ≠ sentinel) = true := fun c hc => decide_eq_true (ne_of_mem_of_not_mem hc hr)
  rw [findPayload, hsplit, if_pos (by simp), List.takeWhile_append_of_pos hall]
  simp

/-! ### The keyed commands -/

section
variable {s : State} {m k : Text}

theorem execXorEncK_eq (hm : s.HasMessage m) (hk : s.HasKey k) :
    execXorEncK s = (xorEncrypt m k).elim (s.raise .decode 0x2) s.emit := by
  rw [execXorEncK, s.validated_pass _ _ (by simp [hm.passes, hk.passes]), hm.messageText, orFault_ok, hk.keyText,
    orFault_ok]
  cases xorEncrypt m k <;> rfl

theorem execXorDecK_eq (hm : s.HasMessage m) (hk : s.HasKey k) :
    execXorDecK s = (xorDecrypt m k).elim (s.raise .decode 0x1) s.emit := by
  rw [execXorDecK, s.validated_pass _ _ (by simp [hm.passes, hk.passes]), hm.messageText, orFault_ok, hk.keyText,
    orFault_ok]
  cases xorDecrypt m k <;> rfl

theorem execEmbedK_eq (himage : s.HasImage) (hm : s.HasMessage m) (hk : s.HasKey k) :
    execEmbedK s =
      (xorEncrypt m k).elim (s.withCapacity.raise .decode 0x2) fun p => embedPayload p s.withCapacity := by
  rw [execEmbedK, s.validated_pass _ _ (by simp [himage.passes, hm.passes, hk.passes]), hm.messageText, orFault_ok,
    hk.keyText, orFault_ok]
  cases xorEncrypt m k <;> rfl

/-- EXTRACT.K once a terminator is found. -/
theorem execExtractK_eq {bits : Bits} {r : Text} (himage : s.HasImage) (hbits : s.HasLsbs bits) (hk : s.HasKey k)
    (hr : findPayload bits = some r) :
    execExtractK s = (xorDecrypt r k).elim (s.withCapacity.raise .decode 0x1) s.withCapacity.emit := by
  rw [execExtractK, s.validated_pass _ _ (by simp [himage.passes, hk.passes]),
    (gatherLsbs_iff_hasLsbs s bits).2 hbits, orFault_ok, hr]
  simp only [hk.keyText, orFault_ok]
  cases xorDecrypt r k <;> rfl

end

/-- Malformed Base64 is the only failure of xorDecrypt (R128, R152). -/
theorem xorDecrypt_eq_none (a k : Text) (h : b64Dec a = none) : xorDecrypt a k = none := by
  rw [xorDecrypt, h, Option.map_none]

/-- Settles O34: each command's transform has no result, so the command raises DECODE. -/
theorem transformFailureRaisesDecode : Obligations.TransformFailureRaisesDecode := by
  intro s m k hk
  refine ⟨fun hm hnone => ⟨?_, fun himage => ?_⟩, fun hm hnone => ?_,
    fun bits r rest himage hbits hsplit hr hnone => ?_⟩
  · exact (execXorEncK_eq hm hk).trans (by rw [hnone]; rfl)
  · exact (execEmbedK_eq himage hm hk).trans (by rw [hnone]; rfl)
  · exact (execXorDecK_eq hm hk).trans (by rw [xorDecrypt_eq_none m k hnone]; rfl)
  · exact (execExtractK_eq himage hbits hk (findPayload_of_split bits r rest hsplit hr)).trans
      (by rw [xorDecrypt_eq_none r k hnone]; rfl)

end Sys2Proof.Machine

/-! SUPPORT. The XOR processor: XOR with the cycled key undoes itself, when each cipher has a result and which, and the
text that their commands put into OB. -/

namespace Sys2Proof.Machine

/-! ### XOR with the cycled key -/

/-- Element i takes the whole key unit at i modulo the key's length (R150, R154). -/
theorem xorCycled_getElem (t k : Text) (hk : 0 < k.length) (i : Nat) (h : i < (xorCycled t k).length) :
    (xorCycled t k)[i] = t[i]'(xorCycled_length t k ▸ h) ^^^ k[i % k.length]'(Nat.mod_lt i hk) := by
  simp [xorCycled, List.getElem?_eq_getElem (Nat.mod_lt i hk)]

/-- XOR with the same cycled key undoes itself (R157). -/
theorem xorCycled_xorCycled (t k : Text) : xorCycled (xorCycled t k) k = t :=
  List.ext_getElem (by simp) fun i _ _ => by simp [xorCycled]

/-- What holds of every XORed unit, said by the unit's index. -/
theorem forall_mem_xorCycled_iff (t k : Text) (hk : 0 < k.length) (P : CodeUnit → Prop) :
    (∀ c ∈ xorCycled t k, P c) ↔
      ∀ (i : Nat) (h : i < t.length), P (t[i] ^^^ k[i % k.length]'(Nat.mod_lt i hk)) := by
  simp only [List.forall_mem_iff_getElem, xorCycled_getElem t k hk, xorCycled_length]

/-! ### Bytes among code units -/

/-- A code unit that is a byte keeps its value in 8 bits. -/
theorem toNat_setWidth_byte (c : CodeUnit) (h : c.toNat ≤ 0xFF) : (c.setWidth 8).toNat = c.toNat := by
  rw [BitVec.toNat_setWidth, Nat.mod_eq_of_lt (by omega)]

/-- A text of bytes is the same text after narrowing and widening. -/
theorem widen_narrow_text (t : Text) (h : ∀ c ∈ t, c.toNat ≤ 0xFF) :
    (t.map (BitVec.setWidth 8)).map (BitVec.setWidth 16) = t := by
  have hunit : ∀ c ∈ t, (c.setWidth 8).setWidth 16 = c := fun c hc =>
    BitVec.eq_of_toNat_eq (by rw [BitVec.toNat_setWidth_of_le (by decide), toNat_setWidth_byte c (h c hc)])
  rw [List.map_map]
  exact (List.map_congr_left hunit).trans (List.map_id' t)

/-! ### The two ciphers -/

/-- xorEncrypt has a result exactly when every XORed unit is a byte, and then it is their Base64 text (R150, R151). -/
theorem xorEncrypt_eq_some_iff (m k a : Text) :
    xorEncrypt m k = some a ↔
      (∀ c ∈ xorCycled m k, c.toNat ≤ 0xFF) ∧ b64Enc ((xorCycled m k).map (BitVec.setWidth 8)) = a := by
  simp [xorEncrypt]

theorem xorEncrypt_eq_none_iff (m k : Text) :
    xorEncrypt m k = none ↔ ¬ ∀ c ∈ xorCycled m k, c.toNat ≤ 0xFF := by
  simp [xorEncrypt]

/-- Where decoding succeeds, xorDecrypt has a result whatever the key (R152, R153). -/
theorem xorDecrypt_of_b64Dec (a k : Text) (x : List Byte) (h : b64Dec a = some x) :
    xorDecrypt a k = some (xorCycled (x.map (BitVec.setWidth 16)) k) := by
  rw [xorDecrypt, h, Option.map_some]

/-- Settles O9: what holds of the XORed units, said by their indices. -/
theorem xorEncryptIsCycledXor : Obligations.XorEncryptIsCycledXor := by
  refine fun m k hk => ⟨?_, fun a ha => ?_⟩
  · rw [xorEncrypt_eq_none_iff, forall_mem_xorCycled_iff m k hk (·.toNat ≤ 0xFF)]
    simp only [not_forall, not_le]
  · obtain ⟨hbytes, rfl⟩ := (xorEncrypt_eq_some_iff m k a).1 ha
    refine ⟨_, rfl, by simp, fun i h _ => ?_⟩
    rw [List.getElem_map, xorCycled_getElem m k hk]
    exact toNat_setWidth_byte _ ((forall_mem_xorCycled_iff m k hk (·.toNat ≤ 0xFF)).1 hbytes i h)

/-- Settles O10: decoding alone decides whether there is a result. -/
theorem xorDecryptIsCycledXor : Obligations.XorDecryptIsCycledXor := by
  refine fun a k hk => ⟨Option.map_eq_none_iff, fun b hb => ?_⟩
  refine ⟨_, xorDecrypt_of_b64Dec a k b hb, by simp, fun i _ _ => ?_⟩
  rw [xorCycled_getElem _ k hk, List.getElem_map]

/-- Settles O11: the Base64 text gives back the XORed bytes, and the same key gives back the text. -/
theorem xorRoundTrip : Obligations.XorRoundTrip := by
  intro m k hk h
  have hbytes := (forall_mem_xorCycled_iff m k hk (·.toNat ≤ 0xFF)).2 h
  rw [(xorEncrypt_eq_some_iff m k _).2 ⟨hbytes, rfl⟩, Option.bind_some, xorDecrypt_of_b64Dec _ k _ (b64Dec_b64Enc _),
    widen_narrow_text _ hbytes, xorCycled_xorCycled]

/-! ### The output of the commands -/

/-- A success with output: the text lies in OB from unit 0 on, and every other unit of OB is as before (R232). -/
theorem State.emit_output (s : State) (t : Text) (hs : s.MemoriesWf) :
    ∃ ob : Memory 16,
      s.emit t = .next
        { s with ob := ob, outLen := BitVec.ofNat 24 t.length, err := 0, busy := false, done := true } ∧
      ∀ u, ob.read? u = if u < t.length then t[u]? else s.ob.read? u := by
  obtain ⟨-, -, -, hob, -⟩ := hs
  exact ⟨s.ob.writeFrom 0 t, rfl, fun u => by simp [Memory.read?_writeFrom t s.ob 0 hob]⟩

/-- Settles O29: the command emits the result, whose length xorEncrypt fixes. -/
theorem xorEncryptToOutput : Obligations.XorEncryptToOutput := by
  intro s m k a hs hm hk ha
  obtain ⟨ob, hemit, hread⟩ := s.emit_output a hs
  have hexec : exec .xorEncK s = s.emit a := (execXorEncK_eq hm hk).trans (by rw [ha, Option.elim_some])
  exact ⟨ob, hexec.trans hemit, xorEncrypt_length m k a ha, hread⟩

/-- Settles O30: the command emits the result, which is no longer than the artifact. -/
theorem xorDecryptToOutput : Obligations.XorDecryptToOutput := by
  intro s a k m hs ha hk hm
  obtain ⟨ob, hemit, hread⟩ := s.emit_output m hs
  have hexec : exec .xorDecK s = s.emit m := (execXorDecK_eq ha hk).trans (by rw [hm, Option.elim_some])
  exact ⟨ob, hexec.trans hemit, xorDecrypt_length_le a k m hm, hread⟩

end Sys2Proof.Machine

/-! SUPPORT. The steganographic channel: the slots of an image, the bit a slot carries, the payload in an image's text, and
what the four image commands do with them. -/

namespace Sys2Proof.Machine

/-! ### Slots -/

/-- The slots of an image of so many pixels are the first 3 of each pixel, so as many as its capacity (R40, R171). -/
theorem slot_lt_image_iff (j pixels : Nat) : slot j < 4 * pixels ↔ j < 3 * pixels := by
  unfold slot; omega

/-- The indices that slots reach are those that are no alpha channel (R170, R171). -/
theorem mem_slots_iff (pixels i : Nat) :
    i ∈ (List.range (3 * pixels)).map slot ↔ i < 4 * pixels ∧ ¬ isAlpha i := by
  simp only [List.mem_map, List.mem_range]
  constructor
  · rintro ⟨j, hj, rfl⟩
    exact ⟨slot_lt_image j pixels hj, slot_not_alpha j⟩
  · rintro ⟨hlt, halpha⟩
    obtain ⟨j, rfl⟩ := exists_slot i halpha
    exact ⟨j, (slot_lt_image_iff j pixels).1 hlt, rfl⟩

/-- Settles O12: both lists rise strictly, and they have the same members. -/
theorem slotsAreTheNonAlphaBytes : Obligations.SlotsAreTheNonAlphaBytes := by
  intro w h
  have hslots : ((List.range (3 * (w * h))).map slot).Pairwise (· < ·) :=
    List.pairwise_lt_range.map slot fun j k hjk => (slot_lt_slot j k).2 hjk
  rw [Nat.mul_assoc, Nat.mul_assoc]
  exact hslots.eq_of_mem_iff (List.pairwise_lt_range.filter _) fun i => by simp [mem_slots_iff]

/-! ### The bit in a byte -/

theorem lsbWrite_getLsbD_zero (old : Byte) (bit : Bool) : (lsbWrite old bit).getLsbD 0 = bit := by
  cases bit <;> simp [lsbWrite]

theorem lsbWrite_getLsbD_pos (old : Byte) (bit : Bool) (i : Nat) (h : 1 ≤ i) :
    (lsbWrite old bit).getLsbD i = old.getLsbD i := by
  have hne : i ≠ 0 := by omega
  have hmask : (0xFE#8).getLsbD i = decide (i < 8) := by
    rw [show 0xFE#8 = ~~~1#8 from rfl, BitVec.getLsbD_not, BitVec.getLsbD_one]
    simp [hne]
  have hbit : ((BitVec.ofBool bit).setWidth 8).getLsbD i = false := by
    rw [BitVec.getLsbD_setWidth, BitVec.getLsbD_of_ge _ _ h, Bool.and_false]
  rw [lsbWrite, BitVec.getLsbD_or, BitVec.getLsbD_and, hmask, hbit, Bool.or_false]
  by_cases hi : i < 8
  · simp [hi]
  · simp [hi, BitVec.getLsbD_of_ge old i (by omega)]

/-- Settles O13: the mask keeps bits 7..1, and only bit 0 is put in. -/
theorem lsbWriteSetsOnlyBitZero : Obligations.LsbWriteSetsOnlyBitZero := fun old bit =>
  ⟨lsbWrite_getLsbD_zero old bit, lsbWrite_getLsbD_pos old bit⟩

/-! ### The payload in a text -/

theorem findPayload_eq_none_iff (bits : Bits) : findPayload bits = none ↔ sentinel ∉ b2t bits := by
  simp [findPayload]

/-- The payload found is what stands before the first terminator (R176). -/
theorem findPayload_eq_some_iff (bits : Bits) (r : Text) :
    findPayload bits = some r ↔ sentinel ∉ r ∧ ∃ rest, b2t bits = r ++ sentinel :: rest := by
  constructor
  · intro hfound
    have hmem : sentinel ∈ b2t bits := by
      by_contra hno
      rw [(findPayload_eq_none_iff bits).2 hno] at hfound
      cases hfound
    obtain ⟨first, rest, hsplit, hfirst⟩ := List.eq_append_cons_of_mem hmem
    obtain rfl : first = r := Option.some.inj ((findPayload_of_split bits first rest hsplit hfirst).symm.trans hfound)
    exact ⟨hfirst, rest, hsplit⟩
  · rintro ⟨hr, rest, hsplit⟩
    exact findPayload_of_split bits r rest hsplit hr

/-- Settles O14: a text has one split at its first terminator, and has it exactly when it holds one. -/
theorem payloadEndsAtFirstTerminator : Obligations.PayloadEndsAtFirstTerminator := fun bits =>
  ⟨findPayload_eq_none_iff bits, findPayload_eq_some_iff bits⟩

/-- A terminated text in front: what is found is the text up to its own first terminator, if it holds one (R185). -/
theorem findPayload_of_prefix (bits : Bits) (p rest : Text) (h : b2t bits = p ++ sentinel :: rest) :
    findPayload bits = some (p.takeWhile (· ≠ sentinel)) := by
  rw [findPayload, h, if_pos (by simp), List.takeWhile_append]
  split
  next hlen =>
    rw [List.takeWhile_cons_of_neg (by simp), List.append_nil, (List.takeWhile_prefix _).eq_of_length hlen]
  next => rfl

/-- The terminator is itself a unit up to 0xFF (R15). -/
theorem narrow_terminated (p : Text) (hp : ∀ c ∈ p, c.toNat ≤ 0xFF) : ∀ c ∈ p ++ [sentinel], c.toNat ≤ 0xFF := by
  simpa [or_imp, forall_and] using hp

/-- Bits that begin with a narrow text's payload are read as that text and its terminator (R174, R124). -/
theorem b2t_embedBits_append (p : Text) (rest : Bits) (hp : ∀ c ∈ p, c.toNat ≤ 0xFF) :
    b2t (embedBits p ++ rest) = p ++ sentinel :: b2t rest := by
  rw [embedBits, b2t_t2b_append _ rest (narrow_terminated p hp), List.append_assoc, List.singleton_append]

/-- The payload of a narrow text takes 8 bits a unit, its terminator included (R174). -/
theorem embedBits_length (p : Text) (hp : ∀ c ∈ p, c.toNat ≤ 0xFF) : (embedBits p).length = 8 * (p.length + 1) := by
  rw [embedBits, t2b_length_of_narrow _ (narrow_terminated p hp), List.length_append, List.length_singleton]

/-- An encrypted text is Base64 text: bytes, and no terminator among them (R126). -/
theorem xorEncrypt_units (m k p : Text) (h : xorEncrypt m k = some p) :
    (∀ c ∈ p, c.toNat ≤ 0xFF) ∧ sentinel ∉ p := by
  obtain ⟨-, rfl⟩ := (xorEncrypt_eq_some_iff m k p).1 h
  obtain ⟨-, hshape⟩ := baseSixtyFourTextShape ((xorCycled m k).map (BitVec.setWidth 8))
  constructor
  · intro c hc
    obtain ⟨-, -, hle, -⟩ := hshape c hc
    omega
  · intro hmem
    obtain ⟨-, -, -, hne⟩ := hshape _ hmem
    exact hne rfl

/-! ### A payload in pixel memory -/

/-- `new` is the pixel memory `old` with the bits of a payload embedded: each bit in bit 0 of its slot, every other byte
as before (R172, R178). -/
structure Embeds (old : Memory 8) (bits : Bits) (new : Memory 8) : Prop where
  slots : ∀ (j : Nat) (h : j < bits.length), ∃ byte,
    old.read? (slot j) = some byte ∧ new.read? (slot j) = some (lsbWrite byte bits[j])
  others : ∀ i, (∀ j < bits.length, i ≠ slot j) → new.read? i = old.read? i

theorem embeds_of_embedLoop {old new : Memory 8} {bits : Bits} (hold : (old.map Prod.fst).Pairwise (· < ·))
    (h : embedLoop old 0 bits = .ok new) : Embeds old bits new := by
  obtain ⟨-, hslots, hothers⟩ := embedLoop_ok bits old 0 new hold h
  simp only [Nat.zero_add] at hslots hothers
  exact ⟨hslots, hothers⟩

section
variable {old new : Memory 8} {bits : Bits}

theorem Embeds.read?_later_slot (h : Embeds old bits new) (j : Nat) (hj : bits.length ≤ j) :
    new.read? (slot j) = old.read? (slot j) :=
  h.others _ fun n hn hc => by have := slot_injective _ _ hc; omega

theorem Embeds.read?_alpha (h : Embeds old bits new) (i : Nat) (hi : isAlpha i) : new.read? i = old.read? i :=
  h.others _ fun n _ hc => slot_not_alpha n (hc ▸ hi)

/-- A payload that fits an image writes nothing past it (R187). -/
theorem Embeds.read?_past_image (h : Embeds old bits new) (pixels i : Nat) (hfit : bits.length ≤ 3 * pixels)
    (hi : 4 * pixels ≤ i) : new.read? i = old.read? i :=
  h.others _ fun n hn hc => by have := slot_lt_image n pixels (by omega); omega

/-- Bits 7..1 of every byte are as before, whether or not the byte is a slot of the payload (R172, R187). -/
theorem Embeds.getLsbD_pos (h : Embeds old bits new) (i b : Nat) (hb : 1 ≤ b) :
    (new.read? i).map (·.getLsbD b) = (old.read? i).map (·.getLsbD b) := by
  by_cases hslot : ∃ j < bits.length, i = slot j
  · obtain ⟨j, hj, rfl⟩ := hslot
    obtain ⟨byte, hold, hnew⟩ := h.slots j hj
    rw [hold, hnew, Option.map_some, Option.map_some, lsbWrite_getLsbD_pos byte _ b hb]
  · rw [h.others i fun j hj hi => hslot ⟨j, hj, hi⟩]

theorem Embeds.getLsbD_zero (h : Embeds old bits new) (j : Nat) (hj : j < bits.length) :
    (new.read? (slot j)).map (·.getLsbD 0) = some bits[j] := by
  obtain ⟨byte, -, hnew⟩ := h.slots j hj
  rw [hnew, Option.map_some, lsbWrite_getLsbD_zero]

theorem Embeds.isSome_read?_slot (h : Embeds old bits new) (j : Nat) (hold : (old.read? (slot j)).isSome) :
    (new.read? (slot j)).isSome := by
  by_cases hj : j < bits.length
  · obtain ⟨byte, -, hnew⟩ := h.slots j hj
    rw [hnew, Option.isSome_some]
  · rwa [h.read?_later_slot j (by omega)]

end

/-- Gathering the low bits of an image gives back, first of all, the payload that was embedded in it (R175, R182). -/
theorem Embeds.exists_hasLsbs {s : State} {old : Memory 8} {bits : Bits} (h : Embeds old bits s.pb)
    (hfit : bits.length ≤ s.capacityBits) (hold : ∀ j < s.capacityBits, (old.read? (slot j)).isSome) :
    ∃ rest, s.HasLsbs (bits ++ rest) := by
  obtain ⟨all, hgather⟩ := (gatherLsbs_ok_iff s).2 fun j hj => h.isSome_read?_slot j (hold j hj)
  obtain ⟨hlen, hread⟩ := (gatherLsbs_iff_hasLsbs s all).1 hgather
  have hle : bits.length ≤ all.length := hlen ▸ hfit
  have hprefix : bits <+: all := List.prefix_iff_getElem.2 ⟨hle, fun j hj =>
    Option.some.inj ((h.getLsbD_zero j hj).symm.trans (hread j (by omega)))⟩
  obtain ⟨rest, rfl⟩ := hprefix
  exact ⟨rest, hlen, hread⟩

/-! ### What EMBED and EMBED.K answer -/

theorem execEmbed_eq {s : State} {m : Text} (himage : s.HasImage) (hm : s.HasMessage m) :
    execEmbed s = embedPayload m s.withCapacity := by
  rw [execEmbed, s.validated_pass _ _ (by simp [himage.passes, hm.passes]), hm.messageText, orFault_ok]

theorem execEmbedK_of_xorEncrypt {s : State} {m k p : Text} (himage : s.HasImage) (hm : s.HasMessage m)
    (hk : s.HasKey k) (hp : xorEncrypt m k = some p) : execEmbedK s = embedPayload p s.withCapacity := by
  rw [execEmbedK_eq himage hm hk, hp, Option.elim_some]

/-- The state after a success of EMBED or EMBED.K with the payload text `p`, the pixel memory being `pb` then (R178). -/
def State.embedded (s : State) (p : Text) (pb : Memory 8) : State :=
  { s with
    pb := pb, capacity := BitVec.ofNat 32 s.capacityBits, bitLen := BitVec.ofNat 32 (embedBits p).length,
    err := 0, busy := false, done := true }

/-- A payload that fits, its slots being written, is embedded, and PB stays in canonical form (R178). -/
theorem exists_embedPayload (s : State) (p : Text) (hs : s.MemoriesWf) (hfit : (embedBits p).length ≤ s.capacityBits)
    (hslots : s.SlotsWritten (embedBits p).length) :
    ∃ pb, embedPayload p s.withCapacity = .next (s.embedded p pb) ∧ Embeds s.pb (embedBits p) pb ∧
      pb.wf s.build.pbBytes := by
  obtain ⟨hpb, -⟩ := hs
  obtain ⟨pb, hloop⟩ := embedLoop_exists (embedBits p) s.pb 0 hpb.1 (by simpa only [Nat.zero_add] using hslots)
  have hloop' : embedLoop s.withCapacity.pb 0 (embedBits p) = .ok pb := hloop
  have hfit' : ¬ s.withCapacity.capacityBits < (embedBits p).length := not_lt.2 hfit
  refine ⟨pb, ?_, embeds_of_embedLoop hpb.1 hloop, embedLoop_wf _ _ _ _ _ hpb hloop⟩
  rw [embedPayload, if_neg hfit', hloop', orFault_ok]
  rfl

/-- A payload that does not fit raises CAPACITY, and no PB byte is read or written (R173). -/
theorem embedPayload_of_oversize (s : State) (p : Text) (h : s.capacityBits < (embedBits p).length) :
    embedPayload p s.withCapacity = .next
      { s with
        capacity := BitVec.ofNat 32 s.capacityBits, bitLen := BitVec.ofNat 32 (embedBits p).length,
        err := 0x2, errInfo := 0, busy := false, done := true } := by
  have h' : s.withCapacity.capacityBits < (embedBits p).length := h
  rw [embedPayload, if_pos h']
  rfl

/-- A payload that fits never raises CAPACITY: it is embedded, or meets an unwritten byte (R173). -/
theorem embedPayload_err_of_fits (s t : State) (p : Text) (h : (embedBits p).length ≤ s.capacityBits)
    (ht : embedPayload p s = .next t) : t.err ≠ 0x2 := by
  have hcode : ErrCode.none.code ≠ 0x2 := by decide
  rcases embedPayload_cases p s with ⟨hlt, -⟩ | ⟨pb, -, -, he⟩ | ⟨f, -, he⟩
  · omega
  · rw [he, State.returnOk_eq] at ht
    cases ht
    exact hcode
  · rw [he] at ht
    cases ht

/-- Settles O25: the message is what EMBED embeds. -/
theorem embedWritesThePayload : Obligations.EmbedWritesThePayload := by
  intro s m hs himage hm hfit hslots
  obtain ⟨pb, hembed, hpb, -⟩ := exists_embedPayload s m hs hfit hslots
  exact ⟨pb, (execEmbed_eq himage hm).trans hembed, hpb.slots, hpb.others⟩

/-- Settles O26: the encrypted text is embedded, and its length is known. -/
theorem embedKeyedWritesThePayload : Obligations.EmbedKeyedWritesThePayload := by
  intro s m k p hs himage hm hk hp hfit hslots
  obtain ⟨hnarrow, -⟩ := xorEncrypt_units m k p hp
  obtain ⟨pb, hembed, hpb, -⟩ := exists_embedPayload s p hs hfit hslots
  refine ⟨pb, (execEmbedK_of_xorEncrypt himage hm hk hp).trans hembed, ?_, hpb.slots, hpb.others⟩
  exact (embedBits_length p hnarrow).trans (by rw [xorEncrypt_length m k p hp])

/-- Settles O32: the capacity check decides, for the message itself and for its encrypted text. -/
theorem oversizePayloadRaisesCapacity : Obligations.OversizePayloadRaisesCapacity := by
  intro s m himage hm
  refine ⟨fun hlt => ?_, fun hle t ht => ?_, fun k p hk hp => ⟨fun hlt => ?_, fun hle t ht => ?_⟩⟩
  · exact (execEmbed_eq himage hm).trans (embedPayload_of_oversize s m hlt)
  · exact embedPayload_err_of_fits s.withCapacity t m hle ((execEmbed_eq himage hm).symm.trans ht)
  · exact (execEmbedK_of_xorEncrypt himage hm hk hp).trans (embedPayload_of_oversize s p hlt)
  · exact embedPayload_err_of_fits s.withCapacity t p hle ((execEmbedK_of_xorEncrypt himage hm hk hp).symm.trans ht)

/-! ### What EMBED and EMBED.K never change -/

/-- A next state of EMBED or EMBED.K comes from an error before the capacity check, which writes no PB byte, or from a
payload for an image that V2 has passed. -/
theorem exec_embed_cases (i : Instr) (s t : State) (hi : i = .embed ∨ i = .embedK) (h : exec i s = .next t) :
    t.pb = s.pb ∨ ∃ p, s.imageBytes ≤ s.build.pbBytes ∧ embedPayload p s.withCapacity = .next t := by
  rcases hi with rfl | rfl
  · rw [exec, execEmbed] at h
    rcases s.validated_cases _ _ with ⟨c, -, -, he⟩ | ⟨hpass, he⟩ <;> rw [he] at h
    · cases h
      exact .inl rfl
    · obtain ⟨m, -, hm⟩ := (orFault_eq_next ..).1 h
      exact .inr ⟨m, (Check.v2_passes_iff s).1 (hpass .v2 (by simp)), hm⟩
  · rw [exec, execEmbedK] at h
    rcases s.validated_cases _ _ with ⟨c, -, -, he⟩ | ⟨hpass, he⟩ <;> rw [he] at h
    · cases h
      exact .inl rfl
    · obtain ⟨m, -, hm⟩ := (orFault_eq_next ..).1 h
      obtain ⟨k, -, hk⟩ := (orFault_eq_next ..).1 hm
      cases hp : xorEncrypt m k with
      | some p =>
        rw [hp] at hk
        exact .inr ⟨p, (Check.v2_passes_iff s).1 (hpass .v2 (by simp)), hk⟩
      | none =>
        rw [hp] at hk
        cases hk
        exact .inl rfl

/-- EMBED and EMBED.K leave PB alone, or embed BITLEN bits that fit an image inside PB (R173, R178). -/
theorem exec_embeds (i : Instr) (s t : State) (hi : i = .embed ∨ i = .embedK) (hs : s.MemoriesWf)
    (h : exec i s = .next t) :
    t.pb = s.pb ∨ ∃ bits : Bits, Embeds s.pb bits t.pb ∧ t.bitLen = BitVec.ofNat 32 bits.length ∧
      bits.length ≤ s.capacityBits ∧ s.imageBytes ≤ s.build.pbBytes := by
  obtain ⟨hpb, -⟩ := hs
  rcases exec_embed_cases i s t hi h with hkept | ⟨p, hfit, hp⟩
  · exact .inl hkept
  rcases embedPayload_cases p s.withCapacity with ⟨-, he⟩ | ⟨pb, hle, hloop, he⟩ | ⟨f, -, he⟩ <;> rw [he] at hp <;>
    cases hp
  · exact .inl rfl
  · exact .inr ⟨embedBits p, embeds_of_embedLoop hpb.1 hloop, rfl, hle, hfit⟩

/-- Settles O39: BITLEN holds the payload's length without cutting it, since the image lies inside PB (R12). -/
theorem embedChangesOnlyPayloadLsbs : Obligations.EmbedChangesOnlyPayloadLsbs := by
  intro i s t hi hv hs h
  rcases exec_embeds i s t hi hs h with hkept | ⟨bits, hbits, hlen, hle, hfit⟩
  · rw [hkept]
    exact ⟨fun _ _ => rfl, fun _ _ _ => rfl, fun _ _ => rfl⟩
  obtain ⟨-, -, hsize, -⟩ := hv
  rw [State.capacityBits, Nat.mul_assoc] at hle
  rw [State.imageBytes, Nat.mul_assoc] at hfit
  have hbitLen : t.bitLen.toNat = bits.length := by
    rw [hlen, BitVec.toNat_ofNat, Nat.mod_eq_of_lt (by omega)]
  rw [hbitLen, Nat.mul_assoc]
  refine ⟨fun a ha => ?_, hbits.getLsbD_pos, hbits.read?_later_slot⟩
  rcases ha with halpha | hpast
  · exact hbits.read?_alpha a halpha
  · exact hbits.read?_past_image _ a hle hpast

/-! ### What EXTRACT and EXTRACT.K answer -/

theorem execExtract_eq {s : State} {bits : Bits} (himage : s.HasImage) (hbits : s.HasLsbs bits) :
    execExtract s = (findPayload bits).elim (s.withCapacity.raise .notFound 0) s.withCapacity.emit := by
  rw [execExtract, s.validated_pass _ _ (by simp [himage.passes]), (gatherLsbs_iff_hasLsbs s bits).2 hbits, orFault_ok]
  cases findPayload bits <;> rfl

/-- Without a terminator no key unit is read: V5 and V6 need to pass, but the key need not be written (R262). -/
theorem execExtractK_of_notFound {s : State} {bits : Bits} (himage : s.HasImage) (hbits : s.HasLsbs bits)
    (hkey : Check.fails .v5 s = false ∧ Check.fails .v6 s = false) (hnone : findPayload bits = none) :
    execExtractK s = s.withCapacity.raise .notFound 0 := by
  rw [execExtractK, s.validated_pass _ _ (by simp [himage.passes, hkey]), (gatherLsbs_iff_hasLsbs s bits).2 hbits,
    orFault_ok, hnone]

theorem execExtractK_of_xorDecrypt {s : State} {bits : Bits} {r k m : Text} (himage : s.HasImage)
    (hbits : s.HasLsbs bits) (hk : s.HasKey k) (hr : findPayload bits = some r) (hm : xorDecrypt r k = some m) :
    execExtractK s = s.withCapacity.emit m := by
  rw [execExtractK_eq himage hbits hk hr, hm, Option.elim_some]

/-- Settles O27: the text before the first terminator is what EXTRACT finds, and it is emitted. -/
theorem extractRecoversTheText : Obligations.ExtractRecoversTheText := by
  intro s bits r rest hs himage hbits hsplit hr
  obtain ⟨ob, hemit, hread⟩ := s.withCapacity.emit_output r hs
  have hexec : exec .extract s = s.withCapacity.emit r :=
    (execExtract_eq himage hbits).trans (by rw [findPayload_of_split bits r rest hsplit hr, Option.elim_some])
  exact ⟨ob, hexec.trans hemit, hread⟩

/-- Settles O28: what is found is decrypted, and the result is emitted. -/
theorem extractKeyedRecoversTheText : Obligations.ExtractKeyedRecoversTheText := by
  intro s bits r rest k m hs himage hk hbits hsplit hr hm
  obtain ⟨ob, hemit, hread⟩ := s.withCapacity.emit_output m hs
  have hfound := findPayload_of_split bits r rest hsplit hr
  exact ⟨ob, (execExtractK_of_xorDecrypt himage hbits hk hfound hm).trans hemit, hread⟩

/-- Settles O33: what is not found decides before the key is looked at. -/
theorem missingTerminatorRaisesNotFound : Obligations.MissingTerminatorRaisesNotFound := by
  intro s bits himage hbits hno
  have hnone := (findPayload_eq_none_iff bits).2 hno
  refine ⟨(execExtract_eq himage hbits).trans (by rw [hnone]; rfl), fun hne hle => ?_⟩
  have hkey : Check.fails .v5 s = false ∧ Check.fails .v6 s = false :=
    ⟨decide_eq_false hne, decide_eq_false (not_lt.2 hle)⟩
  exact execExtractK_of_notFound himage hbits hkey hnone

end Sys2Proof.Machine

/-! SUPPORT. The round trips: what EXTRACT and EXTRACT.K find in an image after EMBED or EMBED.K and acceptance. -/

namespace Sys2Proof.Machine

/-! ### The embedded image as the next command finds it -/

/-- The image's text begins with the text `p` and a terminator. -/
def State.Carries (s : State) (p : Text) : Prop :=
  ∃ (bits : Bits) (rest : Text), s.HasLsbs bits ∧ b2t bits = p ++ sentinel :: rest

/-- A narrow text that fits is embedded, and the next command, once accepted, finds an image that carries it (R182). -/
theorem exists_embedPayload_carries (s : State) (p : Text) (w : Word) (hs : s.MemoriesWf)
    (hnarrow : ∀ c ∈ p, c.toNat ≤ 0xFF) (hfit : 8 * (p.length + 1) ≤ s.capacityBits)
    (hslots : s.SlotsWritten s.capacityBits) :
    ∃ pb, embedPayload p s.withCapacity = .next (s.embedded p pb) ∧ ((s.embedded p pb).accept w).MemoriesWf ∧
      ((s.embedded p pb).accept w).Carries p := by
  rw [← embedBits_length p hnarrow] at hfit
  obtain ⟨pb, hembed, hpb, hwf⟩ := exists_embedPayload s p hs hfit fun j hj => hslots j (hj.trans_le hfit)
  have hpb' : Embeds s.pb (embedBits p) ((s.embedded p pb).accept w).pb := hpb
  obtain ⟨rest, hlsbs⟩ := hpb'.exists_hasLsbs hfit hslots
  obtain ⟨-, hothers⟩ := hs
  exact ⟨pb, hembed, ⟨hwf, hothers⟩, _, b2t rest, hlsbs, b2t_embedBits_append p rest hnarrow⟩

/-- The command answered the text `t`: no error, and the units of `t` in OB up to OUT_LEN (R232). -/
def State.Outputs (s : State) (t : Text) : Prop :=
  s.err = 0 ∧ s.outLen.toNat = t.length ∧ ∀ u < t.length, s.ob.read? u = t[u]?

/-- OUT_LEN's 24 bits do not cut the length of a shorter text (R37). -/
theorem State.exists_emit_outputs (s : State) (t : Text) (hs : s.MemoriesWf) (ht : t.length < 2 ^ 24) :
    ∃ s', s.emit t = .next s' ∧ s'.Outputs t := by
  obtain ⟨ob, hemit, hread⟩ := s.emit_output t hs
  refine ⟨_, hemit, rfl, ?_, fun u hu => ?_⟩
  · rw [BitVec.toNat_ofNat, Nat.mod_eq_of_lt ht]
  · rw [hread u, if_pos hu]

/-- EXTRACT of an image that carries a text answers it up to its own first terminator (R180, R185). -/
theorem exec_extract_of_carries {s : State} {p : Text} (hs : s.MemoriesWf) (himage : s.HasImage) (hp : s.Carries p)
    (hlen : p.length < 2 ^ 24) :
    ∃ s', exec .extract s = .next s' ∧ s'.Outputs (p.takeWhile (· ≠ sentinel)) := by
  obtain ⟨bits, rest, hbits, hsplit⟩ := hp
  have hexec : exec .extract s = s.withCapacity.emit (p.takeWhile (· ≠ sentinel)) :=
    (execExtract_eq himage hbits).trans (by rw [findPayload_of_prefix bits p rest hsplit, Option.elim_some])
  rw [hexec]
  exact s.withCapacity.exists_emit_outputs _ hs ((List.takeWhile_prefix _).length_le.trans_lt hlen)

/-- EXTRACT.K of an image that carries an encrypted text answers what the key decrypts it to (R181). -/
theorem exec_extractK_of_carries {s : State} {p k m : Text} (hs : s.MemoriesWf) (himage : s.HasImage)
    (hk : s.HasKey k) (hp : s.Carries p) (hno : sentinel ∉ p) (hm : xorDecrypt p k = some m)
    (hlen : m.length < 2 ^ 24) : ∃ s', exec .extractK s = .next s' ∧ s'.Outputs m := by
  obtain ⟨bits, rest, hbits, hsplit⟩ := hp
  have hexec : exec .extractK s = s.withCapacity.emit m :=
    execExtractK_of_xorDecrypt himage hbits hk (findPayload_of_split bits p rest hsplit hno) hm
  rw [hexec]
  exact s.withCapacity.exists_emit_outputs m hs hlen

theorem takeWhile_ne_sentinel (p : Text) (h : sentinel ∉ p) : p.takeWhile (· ≠ sentinel) = p :=
  List.takeWhile_eq_self_iff.2 fun _ hc => decide_eq_true (ne_of_mem_of_not_mem hc h)

theorem State.HasMessage.length_lt {s : State} {m : Text} (h : s.HasMessage m) : m.length < 2 ^ 24 := by
  obtain ⟨-, -, hlen, -⟩ := h
  exact hlen ▸ s.msgLen.isLt

/-! ### The round trips -/

/-- Settles O56: the message is narrow, so the image's text begins with it. -/
theorem unkeyedRoundTrip : Obligations.UnkeyedRoundTrip := by
  intro s m _ hs himage hm hnarrow hfit hslots
  obtain ⟨pb, hembed, hs', hcarries⟩ :=
    exists_embedPayload_carries s m (encode .extract) hs hnarrow hfit hslots
  obtain ⟨t', hextract, herr, hlen, hread⟩ := exec_extract_of_carries hs' himage hcarries hm.length_lt
  refine ⟨_, t', (execEmbed_eq himage hm).trans hembed, hextract, herr, hlen, fun u hu => ?_, fun hno => ?_⟩
  · rw [hlen] at hu
    rw [hread u hu, List.getElem?_eq_getElem hu]
    exact (List.prefix_iff_getElem?.1 (List.takeWhile_prefix _) u hu).symm
  · rw [hlen, takeWhile_ne_sentinel m hno]

/-- Settles O57: the image carries the encrypted text, and decrypting it gives the message back (R157). -/
theorem keyedRoundTrip : Obligations.KeyedRoundTrip := by
  intro s m k hk _ hs himage hm hkey hbytes hfit hslots
  obtain ⟨p, hp, hback⟩ := Option.bind_eq_some_iff.1 (xorRoundTrip m k hk hbytes)
  obtain ⟨hnarrow, hno⟩ := xorEncrypt_units m k p hp
  have hfit' : 8 * (p.length + 1) ≤ s.capacityBits := by
    rw [xorEncrypt_length m k p hp]
    exact le_trans (by omega) hfit
  obtain ⟨pb, hembed, hs', hcarries⟩ :=
    exists_embedPayload_carries s p (encode .extractK) hs hnarrow hfit' hslots
  obtain ⟨t', hextract, houtputs⟩ := exec_extractK_of_carries hs' himage hkey hcarries hno hback hm.length_lt
  exact ⟨_, t', (execEmbedK_of_xorEncrypt himage hm hkey hp).trans hembed, hextract, houtputs⟩

/-- Settles O58: the image carries the encrypted text, which holds no terminator. -/
theorem unkeyedExtractGivesArtifact : Obligations.UnkeyedExtractGivesArtifact := by
  intro s m k p hv hs himage hm hkey hp hfit hslots
  obtain ⟨hnarrow, hno⟩ := xorEncrypt_units m k p hp
  obtain ⟨pb, hembed, hs', hcarries⟩ :=
    exists_embedPayload_carries s p (encode .extract) hs hnarrow hfit hslots
  have hlt : p.length < 2 ^ 24 := by
    obtain ⟨-, -, -, -, hmb, -⟩ := hv
    obtain ⟨-, hle, hlen, -⟩ := hm
    rw [xorEncrypt_length m k p hp]
    omega
  obtain ⟨t', hextract, houtputs⟩ := exec_extract_of_carries hs' himage hcarries hlt
  rw [takeWhile_ne_sentinel p hno] at houtputs
  exact ⟨_, t', (execEmbedK_of_xorEncrypt himage hm hkey hp).trans hembed, hextract, houtputs⟩

end Sys2Proof.Machine

/-! SUPPORT. The control commands: NOP, SOFT_RESET at the write to CMD, and an illegal word from the write to CMD to the
engine's turn. -/

namespace Sys2Proof.Machine

/-! ### The two commands -/

/-- Settles O23: NOP only returns Ok. -/
theorem nopCompletes : Obligations.NopCompletes := State.returnOk_eq

/-- Settles O24: the reset of the registers, with CMD_LATCH written after it. -/
theorem softResetRestoresRegisters : Obligations.SoftResetRestoresRegisters := fun _ => rfl

/-! ### The host's write to CMD -/

/-- The offset of CMD leads to CMD, whatever the build (R23). -/
theorem busTarget_cmd (b : Build) : busTarget b 4 0x004#32 = some (.reg .cmd) :=
  busTarget_of_regAt b 0x004#32 .cmd rfl

/-- The host's write to CMD while BUSY = 0: SOFT_RESET's word or an accepted one, and the answer OKAY (R28, R229). -/
theorem step_hostWrite_cmd (s : State) (w : Word) (rest : List HostOp)
    (hnext : s.HostNext (.write 4 0xF#4 0x004#32 w) rest) (hb : s.busy = false) :
    step s = State.writeCmd w
      { s with schedule := s.schedule.tail, program := rest, reply := some { resp := .okay, data := 0 } } :=
  step_hostWrite_target s _ w rest (.reg .cmd) hnext (busTarget_cmd s.build) (.inl hb)

/-- The host's write to an input of the engine while BUSY = 1 is dropped: HZD is set, HostHazard is recorded, and the
answer is OKAY (R270, R271). -/
theorem step_hostWrite_dropped (s : State) (addr data : Word) (rest : List HostOp) (t : Target)
    (hnext : s.HostNext (.write 4 0xF#4 addr data) rest) (ht : busTarget s.build 4 addr = some t)
    (hb : s.busy = true) (hinput : t.inputOfEngine = true) :
    step s = .next
      { s with
        hzd := true, hostHazard := true,
        schedule := s.schedule.tail, program := rest, reply := some { resp := .okay, data := 0 } } := by
  have hdrop : (s.busy && t.inputOfEngine) = true := Bool.and_eq_true_iff.2 ⟨hb, hinput⟩
  rw [step_hostWrite s 4 0xF#4 addr data rest hnext]
  simp only [State.busWrite, if_pos, ht, hdrop]
  rfl

theorem State.writeCmd_softReset (s : State) : s.writeCmd 0x0000000F#32 = exec .softReset s :=
  if_pos rfl

theorem State.writeCmd_of_ne (s : State) (w : Word) (hw : w ≠ 0x0000000F#32) : s.writeCmd w = .next (s.accept w) :=
  if_neg hw

/-- Settles O18: the write performs SOFT_RESET while BUSY = 0 and is dropped otherwise. -/
theorem softResetRunsAtCmdWrite : Obligations.SoftResetRunsAtCmdWrite := by
  refine fun s rest hnext => ⟨fun hb => ?_, fun hb => ?_⟩
  · rw [step_hostWrite_cmd s _ rest hnext hb, State.writeCmd_softReset, softResetRestoresRegisters]
  · exact step_hostWrite_dropped s _ _ rest (.reg .cmd) hnext (busTarget_cmd s.build) hb rfl

/-! ### Illegal words -/

/-- The engine's turn at a word that no command encodes completes it as illegal (R201, R230). -/
theorem State.engineTurn_of_illegal (s : State) (hb : s.busy = true) (hw : ∀ i, encode i ≠ s.cmdLatch) :
    s.engineTurn = execIllegal s.cmdLatch s := by
  rw [State.engineTurn, if_pos hb, decode_of_forall_encode_ne _ hw]

/-- Settles O20: an illegal word is not SOFT_RESET's, so it is accepted, and the engine finds that it does not decode. -/
theorem illegalWordCompletes : Obligations.IllegalWordCompletes := by
  refine ⟨fun s w rest hnext hb hw => ?_, fun s hturn hb hw => ?_⟩
  · have hne : w ≠ 0x0000000F#32 := (hw .softReset).symm
    rw [step_hostWrite_cmd s w rest hnext hb, State.writeCmd_of_ne _ w hne]
    exact ⟨_, rfl, rfl, rfl, rfl, rfl⟩
  · rw [step_of_engine s hturn]
    exact State.engineTurn_of_illegal { s with schedule := s.schedule.tail } hb hw

end Sys2Proof.Machine

/-! SUPPORT. How a command in flight comes about and how it ends: acceptance at the write to CMD, the engine's turn, the
first failing check, what an error writes, and the end of a command under every schedule. -/

namespace Sys2Proof.Machine

/-! ### From the write to CMD to the engine's turn -/

/-- Settles O19: the write to CMD while BUSY = 0 is SOFT_RESET or an acceptance, and while BUSY = 1 it is dropped. -/
theorem acceptanceLatchesTheWord : Obligations.AcceptanceLatchesTheWord := by
  refine fun s w rest hnext => ⟨fun hb hw => ?_, fun hb hw => ?_, fun hb => ?_⟩
  · subst hw
    rw [step_hostWrite_cmd s _ rest hnext hb, State.writeCmd_softReset]
  · rw [step_hostWrite_cmd s w rest hnext hb, State.writeCmd_of_ne _ w hw]
    rfl
  · exact ⟨_, step_hostWrite_dropped s _ w rest (.reg .cmd) hnext (busTarget_cmd s.build) hb rfl, rfl, hb, rfl⟩

/-- The engine's turn at a word that decodes performs its command (R230). -/
theorem State.engineTurn_of_decode (s : State) (i : Instr) (hb : s.busy = true) (hi : decode s.cmdLatch = .ok i) :
    s.engineTurn = exec i s := by
  rw [State.engineTurn, if_pos hb, hi]

/-- Settles O17: using up an entry of the schedule leaves BUSY and CMD_LATCH. -/
theorem engineStepRunsLatchedCommand : Obligations.EngineStepRunsLatchedCommand := by
  intro s i hturn hb hi
  rw [step_of_engine s hturn]
  exact State.engineTurn_of_decode { s with schedule := s.schedule.tail } i hb hi

/-! ### Validation -/

/-- Every command begins with its column of R223, which is empty for the control commands. -/
theorem exec_eq_validated (i : Instr) (s : State) : ∃ body, exec i s = s.validated (Instr.checks i) body := by
  cases i <;> exact ⟨_, rfl⟩

/-- The first failing check decides, whatever the later ones and the command's processing would answer (R223). -/
theorem State.validated_of_firstFailing (s : State) (before after : List Check) (c : Check) (body : Result)
    (hbefore : ∀ d ∈ before, d.fails s = false) (hc : c.fails s = true) :
    s.validated (before ++ c :: after) body = s.raise .validation c.info := by
  have hfind : (before ++ c :: after).find? (·.fails s) = some c :=
    List.find?_eq_some_iff_append.2 ⟨hc, before, after, rfl, by simpa using hbefore⟩
  rw [State.validated, hfind]

/-- Settles O31: each check decides the condition R223 gives it, and validation reports the first that fails. -/
theorem firstFailingCheckIsReported : Obligations.FirstFailingCheckIsReported := by
  refine ⟨fun s => ?_, rfl, fun i s before after c hchecks hbefore hc => ?_⟩
  · exact ⟨decide_eq_true_iff, decide_eq_true_iff, decide_eq_true_iff, decide_eq_true_iff, decide_eq_true_iff,
      decide_eq_true_iff⟩
  · obtain ⟨body, hbody⟩ := exec_eq_validated i s
    rw [hbody, hchecks, s.validated_of_firstFailing before after c body hbefore hc]
    rfl

/-! ### The end of a command -/

/-- The codes that commands raise are codes of R221, none of them ILLEGAL_CMD's, which is for words of no command. -/
theorem legalErr_of_raised (code : ErrCode)
    (h : code ∈ [ErrCode.validation, ErrCode.capacity, ErrCode.notFound, ErrCode.decode]) :
    legalErr code.code ∧ code.code ≠ ErrCode.illegalCmd.code := by
  revert code
  decide

/-- Settles O36: an error and a success both complete, and each writes a code of R221. -/
theorem commandCompletesOrFaults : Obligations.CommandCompletesOrFaults := by
  intro i s hi
  rcases exec_outcome i hi s with ⟨f, hfault⟩ | ⟨code, info, cap, bl, hcode, herror⟩ | ⟨cap, bl, pb, ob, len, hok⟩
  · exact .inr ⟨f, hfault⟩
  · obtain ⟨hlegal, hne⟩ := legalErr_of_raised code hcode
    exact .inl ⟨_, herror, rfl, rfl, hlegal, hne⟩
  · exact .inl ⟨_, hok, rfl, rfl, .inl rfl, nofun⟩

/-- Settles O37: a completion with an error is not a success, whose ERR is 0. -/
theorem errorWritesNoMemory : Obligations.ErrorWritesNoMemory := by
  intro i s t hi h herr
  rcases exec_outcome i hi s with ⟨f, hfault⟩ | ⟨code, info, cap, bl, -, herror⟩ | ⟨cap, bl, pb, ob, len, hok⟩
  · cases hfault.symm.trans h
  · cases herror.symm.trans h
    rfl
  · cases hok.symm.trans h
    exact absurd rfl herr

/-! ### A command in flight under a schedule -/

/-- What a command in flight may have come to: it has completed with a code of R221, or, where a reset was possible, been
abandoned by it, or it has met the model fault (R221, R230, R260). -/
def CommandEnd (reset : Prop) (r : Result) : Prop :=
  (∃ t, r = .next t ∧ t.busy = false ∧ (¬ reset → t.done = true ∧ legalErr t.err)) ∨ ∃ f, r = .fault f

theorem CommandEnd.mono {reset reset' : Prop} {r : Result} (h : CommandEnd reset r) (himp : reset → reset') :
    CommandEnd reset' r := by
  rcases h with ⟨t, ht, hb, hdone⟩ | hfault
  · exact .inl ⟨t, ht, hb, fun hno => hdone (mt himp hno)⟩
  · exact .inr hfault

/-- The engine's turn ends the command in flight, an illegal word with ILLEGAL_CMD (R201, R230). -/
theorem State.commandEnd_engineTurn (s : State) (reset : Prop) (hb : s.busy = true) (hlatch : s.cmdLatch ≠ 0x0000000F#32) :
    CommandEnd reset s.engineTurn := by
  by_cases hlegal : ∃ i, encode i = s.cmdLatch
  · obtain ⟨i, hi⟩ := hlegal
    have hsoft : i ≠ .softReset := by
      rintro rfl
      exact hlatch hi.symm
    rw [s.engineTurn_of_decode i hb ((decode_eq_ok_iff _ _).2 hi)]
    rcases commandCompletesOrFaults i s hsoft with ⟨t, ht, hbusy, hdone, herr, -⟩ | hfault
    · exact .inl ⟨t, ht, hbusy, fun _ => ⟨hdone, herr⟩⟩
    · exact .inr hfault
  · rw [s.engineTurn_of_illegal hb (not_exists.1 hlegal)]
    have hcode : legalErr ErrCode.illegalCmd.code := by decide
    exact .inl ⟨_, rfl, rfl, fun _ => ⟨rfl, hcode⟩⟩

theorem State.exists_writeTarget (s : State) (data : Word) (t : Target) : ∃ u, s.writeTarget data t = .next u := by
  cases t with
  | reg r =>
    by_cases hr : r = .cmd
    · subst hr
      by_cases hw : data = 0x0000000F#32
      · subst hw
        exact ⟨_, s.writeCmd_softReset⟩
      · exact ⟨_, s.writeCmd_of_ne data hw⟩
    · exact ⟨_, s.writeTarget_reg data r hr⟩
  | pb _ | mb _ | kb _ | ob _ => exact ⟨_, rfl⟩

/-- A bus write always answers a next state: an error of the bus is an answer too (R64). -/
theorem State.exists_busWrite (s : State) (size : Nat) (lanes : BitVec 4) (addr data : Word) :
    ∃ u, s.busWrite size lanes addr data = .next u := by
  unfold State.busWrite
  split
  next => exact ⟨_, rfl⟩
  next t _ =>
    split
    · exact ⟨_, rfl⟩
    · exact (s.answer .okay 0).exists_writeTarget data t

/-- The host's turn never stops the machine. -/
theorem State.exists_hostTurn (s : State) : ∃ t, s.hostTurn = .next t := by
  unfold State.hostTurn
  split
  next => exact ⟨_, rfl⟩
  next size lanes addr data rest _ => exact State.exists_busWrite { s with program := rest } size lanes addr data
  next => exact ⟨_, rfl⟩
  next => exact ⟨_, rfl⟩
  next => exact ⟨_, rfl⟩

/-- The host's turn leaves a command in flight where it is, one entry of the schedule being used up (R270, R271). -/
theorem exists_step_host_inFlight (s : State) (hturn : s.turn = .host) (hb : s.busy = true) :
    ∃ t, step s = .next t ∧ t.busy = true ∧ t.cmdLatch = s.cmdLatch ∧ t.schedule = s.schedule.tail := by
  obtain ⟨t, ht⟩ := State.exists_hostTurn { s with schedule := s.schedule.tail }
  have hstep : step s = .next t := (step_of_host s hturn).trans ht
  obtain ⟨hframe, -, -⟩ := hostTurnLeavesCommandInFlight s t hturn hb hstep
  exact ⟨t, hstep, by rw [hframe]; exact hb, by rw [hframe], by rw [hframe]⟩

theorem core_run_one (s : State) : Sys2Proof.core.run 1 s = step s := by
  simp only [Host.Core.run]
  split <;> next hstep => exact hstep.symm

/-- One step of the engine ends the command in flight. -/
theorem commandEnd_run_of_engine (s : State) (reset : Prop) (hb : s.busy = true)
    (hlatch : s.cmdLatch ≠ 0x0000000F#32) (hturn : s.turn = .engine) :
    CommandEnd reset (Sys2Proof.core.run 1 s) := by
  rw [core_run_one, step_of_engine s hturn]
  exact State.commandEnd_engineTurn { s with schedule := s.schedule.tail } reset hb hlatch

/-- One step of the reset input ends the command in flight by abandoning it (R260). -/
theorem commandEnd_run_of_rst (s : State) (reset : Prop) (hreset : reset) (hturn : s.turn = .rst) :
    CommandEnd reset (Sys2Proof.core.run 1 s) := by
  rw [core_run_one, step_of_rst s hturn]
  exact .inl ⟨_, rfl, rfl, fun hno => absurd hreset hno⟩

/-- By induction on the schedule: the host's entries pass with the command still in flight, the engine's or a reset's ends
it, and after the last entry the engine moves. -/
theorem exists_commandEnd (sched : List Turn) : ∀ s : State, s.schedule = sched → s.busy = true →
    s.cmdLatch ≠ 0x0000000F#32 →
    ∃ k, k ≤ sched.length + 1 ∧ CommandEnd (Turn.rst ∈ sched) (Sys2Proof.core.run k s) := by
  induction sched with
  | nil =>
    intro s hsched hb hlatch
    have hturn : s.turn = .engine := by simp [State.turn, hsched, hb]
    exact ⟨1, by omega, commandEnd_run_of_engine s _ hb hlatch hturn⟩
  | cons a rest ih =>
    intro s hsched hb hlatch
    have hturn : s.turn = a := by simp [State.turn, hsched]
    cases a with
    | engine => exact ⟨1, by omega, commandEnd_run_of_engine s _ hb hlatch hturn⟩
    | rst => exact ⟨1, by omega, commandEnd_run_of_rst s _ List.mem_cons_self hturn⟩
    | host =>
      obtain ⟨t, hstep, hbusy, hcmd, htail⟩ := exists_step_host_inFlight s hturn hb
      obtain ⟨k, hk, hend⟩ := ih t (by rw [htail, hsched]; rfl) hbusy (hcmd ▸ hlatch)
      refine ⟨k + 1, by simpa using hk, ?_⟩
      rw [core_run_next Sys2Proof.core s t hstep k]
      exact hend.mono (List.mem_cons_of_mem _)

/-- Settles O45: the statement for the state's own schedule. -/
theorem commandEndsAfterTheSchedule : Obligations.CommandEndsAfterTheSchedule :=
  fun s hb hlatch => exists_commandEnd s.schedule s rfl hb hlatch

end Sys2Proof.Machine

/-! SUPPORT. Reset and hazards: what power-on and the reset input leave, and what the bus answers while BUSY = 1. -/

namespace Sys2Proof.Machine

/-! ### Power-on and the reset input -/

/-- No `written` bit is set where every memory is empty (R261). -/
theorem State.written_of_empty {s : State} (hpb : s.pb = []) (hmb : s.mb = []) (hkb : s.kb = []) (hob : s.ob = [])
    (mem : BlockMem) (a : Nat) : s.written mem a = false := by
  cases mem <;> simp [State.written, hpb, hmb, hkb, hob]

/-- The registers after power-on, in the order of their offsets: ID, the CFG registers and SENTINEL hold their
constants, every other register 0 (R23, R260). -/
theorem State.powerOn_registers (b : Build) :
    allRegs.map (State.powerOn b).readReg =
      [0x53434D31, 0, 0, 0, 0, 0, 0, 0, 0, 0, 0, 0, BitVec.ofNat 32 b.pbBytes, BitVec.ofNat 32 b.mbUnits,
       BitVec.ofNat 32 b.kbUnits, BitVec.ofNat 32 b.obUnits, sentinel.setWidth 32] := by
  simp [allRegs, State.readReg, State.statusWord_eq, State.powerOn]

/-- The reset input leaves every register as power-on does, whatever the state (R260). -/
theorem State.readReg_hardwareReset (s : State) (r : Reg) :
    s.hardwareReset.readReg r = (State.powerOn s.build).readReg r := by
  cases r <;> rfl

/-- Settles O41: power-on's registers are read off; the reset input leaves the same ones, and BUSY and DONE low. -/
theorem hardwareResetValues : Obligations.HardwareResetValues := by
  refine ⟨fun b => ⟨State.powerOn_registers b, rfl, rfl, State.written_of_empty rfl rfl rfl rfl⟩, fun s hturn => ?_⟩
  refine ⟨_, step_of_rst s hturn, ?_, rfl, rfl, rfl, State.written_of_empty rfl rfl rfl rfl⟩
  exact List.map_congr_left fun r _ => State.readReg_hardwareReset { s with schedule := s.schedule.tail } r

/-- Power-on meets the invariant: no memory lists an element, no command is in flight, there is no output, and HZD is
0. -/
theorem State.powerOn_inv (b : Build) (hb : b.Valid) : (State.powerOn b).Inv :=
  ⟨hb, ⟨Memory.nil_wf _, Memory.nil_wf _, Memory.nil_wf _, Memory.nil_wf _⟩, nofun,
    State.resultsWf_of_noOutput (.inl rfl) rfl fun _ => rfl, nofun⟩

/-- Settles O42: `State.reset` is power-on of the reference build, which is valid. -/
theorem resetMeetsInvariant : Obligations.ResetMeetsInvariant :=
  ⟨State.powerOn_inv, State.powerOn_inv Config.build (by decide)⟩

/-! ### Bus accesses while BUSY = 1 -/

/-- The inputs of the engine are the five registers and three windows that R270 lists. -/
theorem Target.inputOfEngine_iff (t : Target) :
    t.inputOfEngine = true ↔
      t ∈ [Target.reg .cmd, .reg .width, .reg .height, .reg .msgLen, .reg .keyLen] ∨
        ∃ n, t = .pb n ∨ t = .mb n ∨ t = .kb n := by
  cases t with
  | reg r => cases r <;> simp [Target.inputOfEngine]
  | pb _ | mb _ | kb _ | ob _ => simp [Target.inputOfEngine]

/-- The results of the engine are the four registers and two windows that R272 lists. -/
theorem Target.resultOfEngine_iff (t : Target) :
    t.resultOfEngine = true ↔
      t ∈ [Target.reg .outLen, .reg .errInfo, .reg .bitLen, .reg .capacity] ∨ ∃ n, t = .pb n ∨ t = .ob n := by
  cases t with
  | reg r => cases r <;> simp [Target.resultOfEngine]
  | pb _ | mb _ | kb _ | ob _ => simp [Target.resultOfEngine]

/-- Settles O48: each listed target is an input of the engine, whose writes are dropped. -/
theorem busyWriteIsDropped : Obligations.BusyWriteIsDropped := by
  intro s addr data rest t hnext hb halign hdecode hlisted
  have htarget : busTarget s.build 4 addr = some t := (busTarget_eq_some ..).2 ⟨⟨rfl, halign⟩, hdecode⟩
  exact step_hostWrite_dropped s addr data rest t hnext htarget hb (t.inputOfEngine_iff.2 hlisted)

/-- A read of a result while BUSY = 1 answers the draw (R272). -/
theorem State.readReply_of_busy_result (s : State) (addr : Word) (t : Target) (ht : busTarget s.build 4 addr = some t)
    (hb : s.busy = true) (hresult : t.resultOfEngine = true) :
    s.readReply 4 addr = { resp := .okay, data := Config.freeWord s.draws } := by
  simp [State.readReply, ht, hb, hresult]

/-- STATUS is the only target whose value shows BUSY (R30). -/
theorem State.readTarget_of_busy (s : State) (b : Bool) (draw : Word) (t : Target) (ht : t ≠ .reg .status) :
    State.readTarget { s with busy := b } draw t = s.readTarget draw t := by
  cases t with
  | reg r =>
    cases r with
    | status => exact absurd rfl ht
    | _ => rfl
  | pb _ | mb _ | kb _ | ob _ => rfl

/-- Settles O51: by whether the target is a result of the engine; any other target but STATUS reads as it does while
BUSY = 0. -/
theorem busyReadsOfResultsAreDraws : Obligations.BusyReadsOfResultsAreDraws := by
  intro s addr t halign hdecode hb
  have htarget : busTarget s.build 4 addr = some t := (busTarget_eq_some ..).2 ⟨⟨rfl, halign⟩, hdecode⟩
  refine ⟨fun hlisted => ?_, fun hother hstatus => ?_⟩
  · exact s.readReply_of_busy_result addr t htarget hb (t.resultOfEngine_iff.2 hlisted)
  · have hresult : t.resultOfEngine = false := Bool.eq_false_iff.2 (mt t.resultOfEngine_iff.1 hother)
    rw [s.readReply_of_target addr t htarget (.inr hresult),
      State.readReply_of_target { s with busy := false } addr t htarget (.inl rfl),
      s.readTarget_of_busy false _ t hstatus]

end Sys2Proof.Machine

/-! SUPPORT. The model fault: it names an unwritten element that the engine reads, and each command meets it exactly when
one of the elements that R262 lists for the command is unwritten. -/

namespace Sys2Proof.Machine

/-! ### The element that a fault names -/

/-- The fault names an element of a memory that the engine reads, and the element is unwritten in `s` (R262). -/
def State.NamesUnwritten (s : State) : Fault → Prop
  | .uninitRead mem a => mem ≠ .ob ∧ s.written mem a = false

/-- Every fault that a result answers names an unwritten element. -/
def FaultsUnwritten (s : State) (r : Result) : Prop := ∀ f, r = .fault f → s.NamesUnwritten f

section
variable {s : State} {f : Fault}

theorem State.namesUnwritten_of_messageText (h : s.messageText = .error f) : s.NamesUnwritten f := by
  obtain ⟨a, -, hnone, rfl⟩ := memReadAll_error _ _ _ _ h
  exact ⟨nofun, by simp [State.written, hnone]⟩

theorem State.namesUnwritten_of_keyText (h : s.keyText = .error f) : s.NamesUnwritten f := by
  obtain ⟨a, -, hnone, rfl⟩ := memReadAll_error _ _ _ _ h
  exact ⟨nofun, by simp [State.written, hnone]⟩

theorem State.namesUnwritten_of_gatherLsbs {c : Nat} (h : gatherLsbs s.pb c = .error f) : s.NamesUnwritten f := by
  obtain ⟨j, -, hnone, rfl⟩ := gatherLsbs_error _ _ _ h
  exact ⟨nofun, by simp [State.written, hnone]⟩

theorem State.namesUnwritten_of_embedLoop {bits : Bits} {j : Nat} (h : embedLoop s.pb j bits = .error f) :
    s.NamesUnwritten f := by
  obtain ⟨n, -, rfl, hnone⟩ := embedLoop_error _ _ _ _ h
  exact ⟨nofun, by simp [State.written, hnone]⟩

theorem faultsUnwritten_orFault {α : Type} {r : Except Fault α} {k : α → Result}
    (hr : ∀ {f}, r = .error f → s.NamesUnwritten f) (hk : ∀ v, FaultsUnwritten s (k v)) :
    FaultsUnwritten s (orFault r k) := by
  cases r with
  | error f =>
    rintro _ ⟨⟩
    exact hr rfl
  | ok v => exact hk v

theorem faultsUnwritten_messageKey {k : Text → Text → Result} (hk : ∀ m key, FaultsUnwritten s (k m key)) :
    FaultsUnwritten s (orFault s.messageText fun m => orFault s.keyText (k m)) :=
  faultsUnwritten_orFault State.namesUnwritten_of_messageText fun m =>
    faultsUnwritten_orFault State.namesUnwritten_of_keyText (hk m)

theorem faultsUnwritten_validated {checks : List Check} {body : Result} (h : FaultsUnwritten s body) :
    FaultsUnwritten s (s.validated checks body) := by
  rcases s.validated_cases checks body with ⟨c, -, -, hc⟩ | ⟨-, hc⟩ <;> rw [hc]
  · exact nofun
  · exact h

theorem faultsUnwritten_embedPayload (p : Text) : FaultsUnwritten s (embedPayload p s.withCapacity) := by
  rcases embedPayload_cases p s.withCapacity with ⟨-, he⟩ | ⟨pb, -, -, he⟩ | ⟨f, hloop, he⟩ <;> rw [he]
  · exact nofun
  · exact nofun
  · rintro _ ⟨⟩
    exact State.namesUnwritten_of_embedLoop hloop

end

/-- A command faults only by one of its reads, each of which names an unwritten element. -/
theorem exec_faultsUnwritten (i : Instr) (s : State) : FaultsUnwritten s (exec i s) := by
  cases i with
  | nop | softReset => exact nofun
  | embed =>
    exact faultsUnwritten_validated <| faultsUnwritten_orFault State.namesUnwritten_of_messageText fun m =>
      faultsUnwritten_embedPayload m
  | embedK =>
    refine faultsUnwritten_validated <| faultsUnwritten_messageKey fun m k => ?_
    cases xorEncrypt m k with
    | some p => exact faultsUnwritten_embedPayload p
    | none => exact nofun
  | extract =>
    refine faultsUnwritten_validated <| faultsUnwritten_orFault State.namesUnwritten_of_gatherLsbs fun bits => ?_
    cases findPayload bits <;> exact nofun
  | extractK =>
    refine faultsUnwritten_validated <| faultsUnwritten_orFault State.namesUnwritten_of_gatherLsbs fun bits => ?_
    cases findPayload bits with
    | none => exact nofun
    | some r =>
      refine faultsUnwritten_orFault State.namesUnwritten_of_keyText fun k => ?_
      cases xorDecrypt r k <;> exact nofun
  | xorEncK =>
    refine faultsUnwritten_validated <| faultsUnwritten_messageKey fun m k => ?_
    cases xorEncrypt m k <;> exact nofun
  | xorDecK =>
    refine faultsUnwritten_validated <| faultsUnwritten_messageKey fun a k => ?_
    cases xorDecrypt a k <;> exact nofun

/-! ### When a command faults -/

/-- A result that is a fault. -/
def Faults (r : Result) : Prop := ∃ f, r = .fault f

@[simp] theorem faults_fault (f : Fault) : Faults (.fault f) := ⟨f, rfl⟩

@[simp] theorem not_faults_raise (s : State) (code : ErrCode) (info : Word) : ¬ Faults (s.raise code info) := nofun

@[simp] theorem not_faults_returnOk (s : State) : ¬ Faults s.returnOk := nofun

@[simp] theorem not_faults_emit (s : State) (t : Text) : ¬ Faults (s.emit t) := nofun

theorem faults_orFault_iff {α : Type} (r : Except Fault α) (k : α → Result) :
    Faults (orFault r k) ↔ (¬ ∃ v, r = .ok v) ∨ ∃ v, r = .ok v ∧ Faults (k v) :=
  orFault_faults_iff r k

/-- Where what follows a read never faults, only the read itself can. -/
theorem faults_orFault_iff_of_not_faults {α : Type} (r : Except Fault α) (k : α → Result)
    (hk : ∀ v, ¬ Faults (k v)) :
    Faults (orFault r k) ↔ ¬ ∃ v, r = .ok v := by
  simp [faults_orFault_iff, hk]

section
variable {s : State}

/-- Where every check passes, a command faults as its processing does. -/
theorem faults_validated_iff {checks : List Check} {body : Result} (hpass : ∀ c ∈ checks, c.fails s = false) :
    Faults (s.validated checks body) ↔ Faults body := by
  rw [s.validated_pass checks body hpass]

/-- Where V3 and V4 pass, the message read is the text that HasMessage names (R223). -/
theorem State.messageText_iff_of_passes (s : State) (h3 : Check.fails .v3 s = false) (h4 : Check.fails .v4 s = false)
    (m : Text) :
    s.messageText = .ok m ↔ s.HasMessage m :=
  s.messageText_iff_hasMessage m (of_decide_eq_false h3) ((Check.v4_passes_iff s).1 h4)

/-- Where V5 and V6 pass, the key read is the text that HasKey names (R223). -/
theorem State.keyText_iff_of_passes (s : State) (h5 : Check.fails .v5 s = false) (h6 : Check.fails .v6 s = false)
    (k : Text) :
    s.keyText = .ok k ↔ s.HasKey k :=
  s.keyText_iff_hasKey k (of_decide_eq_false h5) (not_lt.1 (of_decide_eq_false h6))

/-- A command that reads the message and then the key faults by either read, or by what follows them (R262). -/
theorem faults_messageKey_iff (s : State) (k : Text → Text → Result) :
    Faults (orFault s.messageText fun m => orFault s.keyText (k m)) ↔
      ¬ s.MessageWritten ∨ ¬ s.KeyWritten ∨
        ∃ m key, s.messageText = .ok m ∧ s.keyText = .ok key ∧ Faults (k m key) := by
  rw [← s.messageText_ok_iff, ← s.keyText_ok_iff]
  cases s.messageText <;> cases s.keyText <;> simp

theorem faults_messageKey_iff_of_not_faults (s : State) (k : Text → Text → Result)
    (hk : ∀ m key, ¬ Faults (k m key)) :
    Faults (orFault s.messageText fun m => orFault s.keyText (k m)) ↔ ¬ s.MessageWritten ∨ ¬ s.KeyWritten := by
  simp only [faults_messageKey_iff, hk, and_false, exists_false, or_false]

/-- A payload faults when it fits the image and one of its slots is unwritten (R173, R262). -/
theorem faults_embedPayload_iff (hs : s.MemoriesWf) (p : Text) :
    Faults (embedPayload p s.withCapacity) ↔
      (t2b (p ++ [sentinel])).length ≤ 3 * s.width.toNat * s.height.toNat ∧
        ¬ s.SlotsWritten (t2b (p ++ [sentinel])).length := by
  obtain ⟨hpb, -⟩ := hs
  exact embedPayload_faults_iff p s.withCapacity hpb.1

/-! ### Each command's faults -/

theorem faults_exec_embed_iff (hs : s.MemoriesWf) (hpass : ∀ c ∈ Instr.checks .embed, c.fails s = false) :
    Faults (exec .embed s) ↔
      ¬ s.MessageWritten ∨
        ∃ m, s.HasMessage m ∧ (t2b (m ++ [sentinel])).length ≤ 3 * s.width.toNat * s.height.toNat ∧
          ¬ s.SlotsWritten (t2b (m ++ [sentinel])).length := by
  have hmessage := s.messageText_iff_of_passes (hpass .v3 (by decide)) (hpass .v4 (by decide))
  refine (faults_validated_iff hpass).trans ?_
  rw [faults_orFault_iff, s.messageText_ok_iff]
  simp only [hmessage, faults_embedPayload_iff hs]

theorem faults_exec_embedK_iff (hs : s.MemoriesWf) (hpass : ∀ c ∈ Instr.checks .embedK, c.fails s = false) :
    Faults (exec .embedK s) ↔
      ¬ s.MessageWritten ∨ ¬ s.KeyWritten ∨
        ∃ m k p, s.HasMessage m ∧ s.HasKey k ∧ xorEncrypt m k = some p ∧
          (t2b (p ++ [sentinel])).length ≤ 3 * s.width.toNat * s.height.toNat ∧
          ¬ s.SlotsWritten (t2b (p ++ [sentinel])).length := by
  have hmessage := s.messageText_iff_of_passes (hpass .v3 (by decide)) (hpass .v4 (by decide))
  have hkey := s.keyText_iff_of_passes (hpass .v5 (by decide)) (hpass .v6 (by decide))
  refine (faults_validated_iff hpass).trans <| (faults_messageKey_iff s _).trans <| or_congr_right <| or_congr_right <|
    exists_congr fun m => exists_congr fun k => ?_
  rw [hmessage, hkey]
  cases xorEncrypt m k <;> simp [faults_embedPayload_iff hs]

theorem faults_exec_extract_iff (hpass : ∀ c ∈ Instr.checks .extract, c.fails s = false) :
    Faults (exec .extract s) ↔ ¬ s.SlotsWritten (3 * s.width.toNat * s.height.toNat) := by
  refine (faults_validated_iff hpass).trans ?_
  rw [faults_orFault_iff_of_not_faults _ _ fun bits => by cases findPayload bits <;> simp, gatherLsbs_ok_iff]

/-- The key is read only once a terminator is found (R181, R262). -/
theorem faults_exec_extractK_iff (hpass : ∀ c ∈ Instr.checks .extractK, c.fails s = false) :
    Faults (exec .extractK s) ↔
      ¬ s.SlotsWritten (3 * s.width.toNat * s.height.toNat) ∨
        ∃ bits, s.HasLsbs bits ∧ sentinel ∈ b2t bits ∧ ¬ s.KeyWritten := by
  refine (faults_validated_iff hpass).trans ?_
  rw [faults_orFault_iff, gatherLsbs_ok_iff]
  refine or_congr_right <| exists_congr fun bits => and_congr (gatherLsbs_iff_hasLsbs s bits) ?_
  cases hfound : findPayload bits with
  | none => simp [(findPayload_eq_none_iff bits).1 hfound]
  | some r =>
    obtain ⟨-, rest, hsplit⟩ := (findPayload_eq_some_iff bits r).1 hfound
    dsimp only
    rw [faults_orFault_iff_of_not_faults _ _ fun k => by cases xorDecrypt r k <;> simp, s.keyText_ok_iff]
    simp [hsplit]

theorem faults_exec_xorEncK_iff (hpass : ∀ c ∈ Instr.checks .xorEncK, c.fails s = false) :
    Faults (exec .xorEncK s) ↔ ¬ s.MessageWritten ∨ ¬ s.KeyWritten :=
  (faults_validated_iff hpass).trans <| faults_messageKey_iff_of_not_faults s _ fun m k => by
    cases xorEncrypt m k <;> simp

theorem faults_exec_xorDecK_iff (hpass : ∀ c ∈ Instr.checks .xorDecK, c.fails s = false) :
    Faults (exec .xorDecK s) ↔ ¬ s.MessageWritten ∨ ¬ s.KeyWritten :=
  (faults_validated_iff hpass).trans <| faults_messageKey_iff_of_not_faults s _ fun a k => by
    cases xorDecrypt a k <;> simp

end

/-- Settles O35: a fault comes from a read, which names the unwritten element; and command by command, when a read can
fault. -/
theorem unwrittenReadIsTheFault : Obligations.UnwrittenReadIsTheFault := by
  refine ⟨fun i s mem a hfault => exec_faultsUnwritten i s _ hfault, fun i s hs hpass => ?_⟩
  cases i with
  | nop => exact iff_false_intro (not_faults_returnOk s)
  | softReset => exact iff_false_intro nofun
  | embed => exact faults_exec_embed_iff hs hpass
  | embedK => exact faults_exec_embedK_iff hs hpass
  | extract => exact faults_exec_extract_iff hpass
  | extractK => exact faults_exec_extractK_iff hpass
  | xorEncK => exact faults_exec_xorEncK_iff hpass
  | xorDecK => exact faults_exec_xorDecK_iff hpass

end Sys2Proof.Machine
